-- ==== Sys2Proof/Word.lean ====
section
/-! DEFINITION. Sys2Proof/Word.lean: the word types of the block. Every register is 32 bits wide and every frequency
is an unsigned 32-bit number of hertz (spec/00_scope.md R8). BitVec's own `+`, `-`, `*` are the modular operators
`+32`, `-32`, `*32` of R10. -/

namespace Sys2Proof

/-- A register, an offset, a data value or a frequency in hertz: `u32` of R8 and R9. -/
abbrev Word := BitVec 32

/-- The command byte and the access size of a record: 8 bits (spec/30_encoding.md R71). -/
abbrev Byte := BitVec 8

/-- A ClockId code, carried in `CMD[3:0]`: 0 .. 15 (spec/30_encoding.md R78). -/
abbrev ClockId := BitVec 4

end Sys2Proof
end

