-- ==== Sys2Proof/Machine/Bits.lean ====
section
/-! DEFINITION. Sys2Proof/Machine/Bits.lean: the notation of spec/00_scope.md R9, R10 and R13 as functions: bit slices,
sign extension, and the two operators of R10 that BitVec does not write as such. -/

namespace Sys2Proof.Machine

/-- `w[lo + width - 1 : lo]`: "the unsigned number held in bits hi down to lo" (R9). -/
def bits (w : Word) (lo width : Nat) : Nat := w.toNat >>> lo % 2 ^ width

/-- `sext_32(v, 10)` as an exact integer: `v` read as two's complement (R10; spec/30_encoding.md R82 step 1). -/
def sext10 (v : BitVec 10) : Int := v.toInt

/-- `u32(s)`: `s mod 2^32` (R10). -/
def u32 (z : Int) : Word := BitVec.ofInt 32 z

/-- `a /u d`: unsigned floor division (R10). -/
def divU (a : Word) (d : Nat) : Word := BitVec.ofNat 32 (a.toNat / d)

end Sys2Proof.Machine
end

