-- ==== Sys2Proof/Config.lean ====
section
/-! DEFINITION. Sys2Proof/Config.lean: the implementation parameters of spec/00_scope.md R7. They are fixed for one
instance and no transaction writes them. The spec fixes none of their values, so the model takes all of them as
arguments: a `Config` stands in the machine's state as a constant that no step changes. A claim about the model
therefore quantifies over every configuration. The reference values of spec/92_eei_decisions.md D26 are in
Machine/Reference.lean. -/

namespace Sys2Proof

/-- The three variants (R2). -/
inductive Variant where
  | A
  | B
  | C
deriving DecidableEq, Repr

/-- The write policy of one word of a richer variant (spec/10_state.md R27). -/
inductive Policy where
  /-- `Masked(W, F)`: the bits of `writable` may change, the bits of `forced` are set to 1 on every write. -/
  | masked (writable forced : Word)
  /-- `Ignored`: a write reports success and changes nothing. -/
  | ignored
deriving DecidableEq, Repr

/-- Plain storage, `Masked(0xFFFFFFFF, 0)`: the policy of a word with no declared mask (R27). -/
def Policy.plain : Policy := .masked 0xFFFFFFFF#32 0x00000000#32

/-- The bits `[lo + width - 1 : lo]` of a word. -/
structure Slice where
  lo : Nat
  width : Nat
deriving DecidableEq, Repr

/-- The bit `bit` of register word `idx`: a one-bit control field (spec/10_state.md R29, R30). -/
structure BitPos where
  idx : Nat
  bit : Nat
deriving DecidableEq, Repr

/-- The bits `[lo + width - 1 : lo]` of register word `idx`: a divider or select field (R29, R30). -/
structure FieldPos where
  idx : Nat
  lo : Nat
  width : Nat
deriving DecidableEq, Repr

/-- `PLL_LAYOUT` (spec/30_encoding.md R80). MFN is always 10 bits wide: only its lowest bit is a parameter. -/
structure PllLayout where
  pd : Slice
  mfd : Slice
  mfi : Slice
  mfnLo : Nat
deriving DecidableEq, Repr

/-- `FIELDS_A` (spec/10_state.md R29). -/
structure FieldsA where
  /-- index of the word `MPLL_WORD` -/
  mpllWord : Nat
  /-- index of the word `UPLL_WORD` -/
  upllWord : Nat
  mpllBypass : BitPos
  armSrc : BitPos
  armClkDiv : FieldPos
  ahbClkDiv : FieldPos
deriving DecidableEq, Repr

/-- `FIELDS_B` (spec/10_state.md R30). -/
structure FieldsB where
  /-- index of the word `MPLL_WORD` -/
  mpllWord : Nat
  refsel : FieldPos
  /-- `REFSEL_LF_CODE`: the REFSEL value that selects the low-frequency oscillator -/
  refselLfCode : Nat
  bypassMode : BitPos
  pllEnable : BitPos
  hspDiv : FieldPos
  ipgDiv : FieldPos
deriving DecidableEq, Repr

/-- `OVR_IDX_A`, `OVR_MASK_A`, `OVR_VAL_A`: variant A's post-load override (spec/70_reset_and_hazards.md R221). -/
structure Override where
  idx : Nat
  mask : Word
  val : Word
deriving DecidableEq, Repr

/-- The parameters that variants A and B both have and the baseline lacks (R7). -/
structure Richer where
  /-- the declared entries of `POLICY_v`: word index and policy (a word not listed is plain storage) -/
  policies : List (Nat × Policy)
  /-- `PLL_LAYOUT` -/
  layout : PllLayout
  /-- `XTAL_A` or `XTAL_B`, in hertz -/
  xtal : Word
  /-- `CKIL_FREQ`, in hertz -/
  ckil : Word
  /-- `SUPPORTED_v`: the ClockIds the variant answers -/
  supported : List ClockId
  /-- `DEVNAME_v`: the device-type name carried in diagnostics -/
  deviceName : String
deriving DecidableEq, Repr

/-- The installed controller: one of the three variants, with the parameters that variant has (R2, R7). -/
inductive Controller where
  | a (r : Richer) (f : FieldsA) (ovr : Override)
  | b (r : Richer) (f : FieldsB)
  | c
deriving DecidableEq, Repr

/-- The parameters of one instance (R7). -/
structure Config where
  /-- `N_v`: the word count of the register file -/
  words : Nat
  /-- `WINDOW_v`: the byte size of the MMIO window -/
  window : Nat
  /-- `RESET_v`: all of A's or B's words; the initial entries of C's -/
  resetTable : List Word
  /-- `SNAP_VERSION_v` -/
  snapVersion : Nat
  ctl : Controller
deriving DecidableEq, Repr

/-- `VARIANT` (R2). -/
def Controller.variant : Controller → Variant
  | .a _ _ _ => .A
  | .b _ _ => .B
  | .c => .C

/-- The parameters of a richer variant; none for the baseline. -/
def Controller.richer : Controller → Option Richer
  | .a r _ _ => some r
  | .b r _ => some r
  | .c => none

end Sys2Proof
end

