-- ==== Sys2Proof/Machine/Delivery.lean ====
section
/-! DEFINITION. Sys2Proof/Machine/Delivery.lean: which accesses the platform delivers to the block and which of them
are in bounds (spec/20_memory.md R51 to R55). -/

namespace Sys2Proof.Machine

/-- R51: what a richer variant receives: `size = 4`, `offset mod 4 = 0` and `offset < WINDOW_v`. -/
def deliverable (c : Config) (size : Byte) (offset : Word) : Bool :=
  size == 4#8 && offset.toNat % 4 == 0 && decide (offset.toNat < c.window)

/-- R54, R55: what the baseline receives: any size and any alignment, `offset < WINDOW_C`. -/
def deliverableC (c : Config) (offset : Word) : Bool := decide (offset.toNat < c.window)

/-- R53: a delivered access of a richer variant is in bounds when `offset < 4 · N_v`. -/
def inBounds (c : Config) (offset : Word) : Bool := decide (offset.toNat < 4 * c.words)

/-- R52: `idx = offset >> 2`. -/
def wordIndex (offset : Word) : Nat := offset.toNat >>> 2

end Sys2Proof.Machine
end

