-- ==== Sys2Proof/Machine/Reference.lean ====
section
/-! DEFINITION. Sys2Proof/Machine/Reference.lean: the default PLL layout (spec/92_eei_decisions.md D1) and the
reference configurations REF_A, REF_B and REF_C (D26). "They are a test configuration": every number here is the
spec's choice or general knowledge, none is the source's (log entries 2 and 3). -/

namespace Sys2Proof.Machine

/-- The default PLL layout: PD [29:26], MFD [25:16], MFI [13:10], MFN [9:0] (spec/30_encoding.md R80, D1). -/
def defaultLayout : PllLayout := { pd := ⟨26, 4⟩, mfd := ⟨16, 10⟩, mfi := ⟨10, 4⟩, mfnLo := 0 }

/-- `RESET_A` of D26: w0 to w27. -/
def refResetA : List Word :=
  [0x800B2C01#32, 0x84042800#32, 0xD0030000#32, 0x028A0100#32, 0x04008100#32, 0x00000438#32]
    ++ List.replicate 4 0x01010101#32
    ++ List.replicate 12 0#32
    ++ [0x00A00000#32, 0x0000A030#32, 0x0000A030#32, 0x43000000#32, 0#32, 0#32]

/-- REF_A (D26). -/
def refA : Config :=
  { words := 28
    window := 0x1000
    resetTable := refResetA
    snapVersion := 1
    ctl := .a
      { policies :=
          [(0, .masked 0x3FFF3FFF#32 0x80000000#32), (1, .masked 0x3FFF3FFF#32 0x80000000#32), (16, .ignored)]
        layout := defaultLayout
        xtal := 24000000#32
        ckil := 32768#32
        supported := [0#4, 1#4, 2#4, 3#4, 4#4, 5#4, 6#4]
        deviceName := "imx25.ccm" }
      { mpllWord := 0
        upllWord := 1
        mpllBypass := ⟨2, 22⟩
        armSrc := ⟨2, 13⟩
        armClkDiv := ⟨2, 30, 2⟩
        ahbClkDiv := ⟨2, 28, 2⟩ }
      { idx := 10, mask := 0x00000300#32, val := 0x00000300#32 } }

/-- `RESET_B` of D26: w0 to w25. -/
def refResetB : List Word :=
  [0x074B0B7B#32, 0xFF870B48#32, 0x49FCFE7F#32, 0#32, 0x04001800#32, 0#32, 0x04043001#32, 0#32]
    ++ List.replicate 3 0xFFFFFFFF#32
    ++ List.replicate 12 0#32
    ++ [0x80209828#32, 0#32, 0#32]

/-- REF_B (D26). -/
def refB : Config :=
  { words := 26
    window := 0x1000
    resetTable := refResetB
    snapVersion := 1
    ctl := .b
      { policies :=
          [(0, .masked 0xFFFFFFFF#32 0x04000000#32), (3, .ignored), (4, .masked 0x3FFF3FFF#32 0#32)]
        layout := defaultLayout
        xtal := 26000000#32
        ckil := 32768#32
        supported := [0#4, 3#4, 4#4, 5#4, 6#4]
        deviceName := "imx31.ccm" }
      { mpllWord := 4
        refsel := ⟨0, 1, 2⟩
        refselLfCode := 2
        bypassMode := ⟨0, 7⟩
        pllEnable := ⟨0, 3⟩
        hspDiv := ⟨1, 11, 3⟩
        ipgDiv := ⟨1, 6, 2⟩ } }

/-- REF_C (D26). -/
def refC : Config :=
  { words := 8
    window := 0x20
    resetTable := [0x11111111#32, 0x22222222#32, 0x33333333#32]
    snapVersion := 1
    ctl := .c }

end Sys2Proof.Machine
end

