-- ==== Sys2Proof/Syntax.lean ====
section
/-! DEFINITION. Sys2Proof/Syntax.lean: the "instructions" of the block, which are the transactions a host applies at
its interface (spec/30_encoding.md R70), one constructor for every mnemonic of spec/opcode_table.json, and the encoded
forms they come in (R71, R80). Where the table has several rows under ONE mnemonic (Q.A.UNRECOGNISED, Q.B.UNRECOGNISED,
RESERVED.OP, RESERVED.ARG: one match and mask cannot cover the codes), the constructor carries the code that tells
the rows apart. -/

namespace Sys2Proof

/-- The transactions, and the PLL formula (`PLLW`). -/
inductive Instr where
  /-- READ, variants A and B (R120) -/
  | read (size : Byte) (offset : Word)
  /-- READ.OOR: a delivered READ out of range, variants A and B (R121) -/
  | readOor (offset : Word)
  /-- READ.C (R127) -/
  | readC (size : Byte) (offset : Word)
  /-- WRITE, variants A and B (R122) -/
  | write (size : Byte) (offset data : Word)
  /-- WRITE.OOR: a delivered WRITE out of range, variants A and B (R123) -/
  | writeOor (offset data : Word)
  /-- WRITE.C (R128) -/
  | writeC (size : Byte) (offset data : Word)
  /-- RESET.A (R221) -/
  | resetA
  /-- RESET.B (R222) -/
  | resetB
  /-- RESET.C (R223) -/
  | resetC
  /-- Q.A.NOCLK (R151) -/
  | qANoclk
  /-- Q.A.MPLL (R152) -/
  | qAMpll
  /-- Q.A.UPLL (R153) -/
  | qAUpll
  /-- Q.A.MCU (R154) -/
  | qAMcu
  /-- Q.A.AHB (R155) -/
  | qAAhb
  /-- Q.A.IPG (R156) -/
  | qAIpg
  /-- Q.A.32K (R157) -/
  | qA32k
  /-- Q.A.UNRECOGNISED: ClockId 7 to 15 (R158) -/
  | qAUnrecognised (clk : ClockId)
  /-- Q.B.NOCLK (R170) -/
  | qBNoclk
  /-- Q.B.MPLL.UNSUPPORTED (R175) -/
  | qBMpllUnsupported
  /-- Q.B.UPLL.UNSUPPORTED (R175) -/
  | qBUpllUnsupported
  /-- Q.B.MCU (R172) -/
  | qBMcu
  /-- Q.B.HSP (R173) -/
  | qBHsp
  /-- Q.B.IPG (R174) -/
  | qBIpg
  /-- Q.B.32K (R176) -/
  | qB32k
  /-- Q.B.UNRECOGNISED: ClockId 7 to 15 (R177) -/
  | qBUnrecognised (clk : ClockId)
  /-- Q.C.REFUSED: any ClockId on the baseline (R186) -/
  | qCRefused (clk : ClockId)
  /-- SAVE (R130) -/
  | save
  /-- RESTORE, with the two operands outside the record (R131) -/
  | restore (version : Nat) (image : List Word)
  /-- RESERVED.OP: a command byte whose OP is 0x6 to 0xF (R86) -/
  | reservedOp (cmd : Byte)
  /-- RESERVED.ARG: a nonzero ARG with an OP other than QUERY (R86) -/
  | reservedArg (cmd : Byte)
  /-- PLLW: the PLL formula on a configuration word and a base frequency (spec/40_pll.md R100) -/
  | pllw (word base : Word)
deriving DecidableEq, Repr

/-- An encoded transaction: the record of four fields of R71. -/
structure Record where
  cmd : Byte
  size : Byte
  offset : Word
  data : Word
deriving DecidableEq, Repr

/-- What the host hands the block. A record carries RESTORE's two operands beside it (R71: "VERSION (nat) and IMAGE
(a list of u32)"; 0 and the empty list with any other command). A PLLW request is no transaction: it is a use of the
PLL formula on its own, in the format PLLW of the opcode table. -/
inductive Request where
  | record (r : Record) (version : Nat) (image : List Word)
  | pllw (word base : Word)
deriving DecidableEq, Repr

/-- Why a string of bytes is no record: a record is one fixed-length record of 10 bytes (R88). -/
inductive RecordReject where
  /-- fewer than 10 bytes -/
  | truncated
  /-- more than 10 bytes -/
  | overlong
deriving DecidableEq, Repr

/-- The raw fields of a PLL configuration word, as extracted (R81): `pd_f`, `mfd_f`, `mfi_f` and `mfn_r`. -/
structure PllFields where
  pd : Nat
  mfd : Nat
  mfi : Nat
  mfn : BitVec 10
deriving DecidableEq, Repr

end Sys2Proof
end

