-- ==== Sys2Proof/Decode.lean ====
section
/-! DEFINITION. Sys2Proof/Decode.lean: from a record to the row of the opcode table it selects, and back
(spec/30_encoding.md R71 to R74, R78, R86, R90), and the fields of a PLL configuration word (R80, R81). The decoder is
total: every record of every configuration selects one constructor, reserved command bytes a reserved one. A byte
string that is no record is rejected by name. -/

namespace Sys2Proof

open Sys2Proof.Machine

/-! ### The decoder -/

/-- `CMD[7:4]` (R71). -/
def opOf (cmd : Byte) : BitVec 4 := cmd.extractLsb' 4 4

/-- `CMD[3:0]` (R71). -/
def argOf (cmd : Byte) : ClockId := cmd.extractLsb' 0 4

/-- R78, R90: the QUERY row of variant A for a ClockId. -/
def queryRowA (clk : ClockId) : Instr :=
  match clk.toNat with
  | 0 => .qANoclk
  | 1 => .qAMpll
  | 2 => .qAUpll
  | 3 => .qAMcu
  | 4 => .qAAhb
  | 5 => .qAIpg
  | 6 => .qA32k
  | _ => .qAUnrecognised clk

/-- R78, R90: the QUERY row of variant B for a ClockId. -/
def queryRowB (clk : ClockId) : Instr :=
  match clk.toNat with
  | 0 => .qBNoclk
  | 1 => .qBMpllUnsupported
  | 2 => .qBUpllUnsupported
  | 3 => .qBMcu
  | 4 => .qBHsp
  | 5 => .qBIpg
  | 6 => .qB32k
  | _ => .qBUnrecognised clk

/-- The READ row: R120 or R121 for a richer variant, R127 for the baseline (R73). -/
def readRow (c : Config) (r : Record) : Instr :=
  match c.ctl.variant with
  | .C => .readC r.size r.offset
  | _ => if deliverable c r.size r.offset && !inBounds c r.offset then .readOor r.offset else .read r.size r.offset

/-- The WRITE row: R122 or R123 for a richer variant, R128 for the baseline (R73). -/
def writeRow (c : Config) (r : Record) : Instr :=
  match c.ctl.variant with
  | .C => .writeC r.size r.offset r.data
  | _ =>
    if deliverable c r.size r.offset && !inBounds c r.offset then .writeOor r.offset r.data
    else .write r.size r.offset r.data

/-- The RESET row of the variant (R73). -/
def resetRow : Variant → Instr
  | .A => .resetA
  | .B => .resetB
  | .C => .resetC

/-- The QUERY row of the variant (R73). -/
def queryRow (v : Variant) (clk : ClockId) : Instr :=
  match v with
  | .A => queryRowA clk
  | .B => queryRowB clk
  | .C => .qCRefused clk

/-- R73's `decode(CMD, VARIANT)`, with the operands of the record. A field of the record that the selected row does
not take is not read (log entry 5). -/
def decodeRecord (c : Config) (r : Record) (version : Nat) (image : List Word) : Instr :=
  if 6 ≤ (opOf r.cmd).toNat then .reservedOp r.cmd
  else if opOf r.cmd ≠ 3#4 ∧ argOf r.cmd ≠ 0#4 then .reservedArg r.cmd
  else
    match (opOf r.cmd).toNat with
    | 0 => readRow c r
    | 1 => writeRow c r
    | 2 => resetRow c.ctl.variant
    | 3 => queryRow c.ctl.variant (argOf r.cmd)
    | 4 => .save
    | _ => .restore version image

/-- The instruction a request stands for under a configuration. -/
def decode (c : Config) : Request → Instr
  | .record r version image => decodeRecord c r version image
  | .pllw word base => .pllw word base

/-- A record from its 10 bytes, in the order R71 writes them out: CMD, SIZE, OFFSET, DATA, the most significant byte
of OFFSET and of DATA first (log entry 6). -/
def recordOfBytes : List Byte → Except RecordReject Record
  | [cmd, size, o3, o2, o1, o0, d3, d2, d1, d0] =>
    .ok { cmd := cmd, size := size, offset := o3 ++ o2 ++ o1 ++ o0, data := d3 ++ d2 ++ d1 ++ d0 }
  | bytes => if bytes.length < 10 then .error .truncated else .error .overlong

/-- The decoder on a byte string: total, and rejecting by name what is no record (R88). -/
def decodeBytes (c : Config) (bytes : List Byte) (version : Nat) (image : List Word) : Except RecordReject Instr :=
  (recordOfBytes bytes).map fun r => decodeRecord c r version image

/-! ### The encoder -/

/-- A command byte from OP and ARG (R71). -/
def cmdByte (op arg : BitVec 4) : Byte := op ++ arg

/-- The record of a command that takes no further operand: SIZE, OFFSET and DATA are 0 (R71). -/
def bareRecord (cmd : Byte) : Request := .record { cmd := cmd, size := 0#8, offset := 0#32, data := 0#32 } 0 []

/-- A READ record (R71, R72). -/
def readRecord (size : Byte) (offset : Word) : Request :=
  .record { cmd := cmdByte 0x0#4 0x0#4, size := size, offset := offset, data := 0#32 } 0 []

/-- A WRITE record (R71, R72). -/
def writeRecord (size : Byte) (offset data : Word) : Request :=
  .record { cmd := cmdByte 0x1#4 0x0#4, size := size, offset := offset, data := data } 0 []

/-- A QUERY record: `CMD = 0x30 | clk` (spec/42_clock_query.md R150). -/
def queryRecord (clk : ClockId) : Request := bareRecord (cmdByte 0x3#4 clk)

/-- The request that encodes an instruction (R71, R72, R89). -/
def encode : Instr → Request
  | .read size offset => readRecord size offset
  | .readOor offset => readRecord 4#8 offset
  | .readC size offset => readRecord size offset
  | .write size offset data => writeRecord size offset data
  | .writeOor offset data => writeRecord 4#8 offset data
  | .writeC size offset data => writeRecord size offset data
  | .resetA => bareRecord (cmdByte 0x2#4 0x0#4)
  | .resetB => bareRecord (cmdByte 0x2#4 0x0#4)
  | .resetC => bareRecord (cmdByte 0x2#4 0x0#4)
  | .qANoclk => queryRecord 0#4
  | .qAMpll => queryRecord 1#4
  | .qAUpll => queryRecord 2#4
  | .qAMcu => queryRecord 3#4
  | .qAAhb => queryRecord 4#4
  | .qAIpg => queryRecord 5#4
  | .qA32k => queryRecord 6#4
  | .qAUnrecognised clk => queryRecord clk
  | .qBNoclk => queryRecord 0#4
  | .qBMpllUnsupported => queryRecord 1#4
  | .qBUpllUnsupported => queryRecord 2#4
  | .qBMcu => queryRecord 3#4
  | .qBHsp => queryRecord 4#4
  | .qBIpg => queryRecord 5#4
  | .qB32k => queryRecord 6#4
  | .qBUnrecognised clk => queryRecord clk
  | .qCRefused clk => queryRecord clk
  | .save => bareRecord (cmdByte 0x4#4 0x0#4)
  | .restore version image =>
    .record { cmd := cmdByte 0x5#4 0x0#4, size := 0#8, offset := 0#32, data := 0#32 } version image
  | .reservedOp cmd => bareRecord cmd
  | .reservedArg cmd => bareRecord cmd
  | .pllw word base => .pllw word base

/-- The four bytes of a word, the most significant first (log entry 6). -/
def bytesOfWord (w : Word) : List Byte :=
  [w.extractLsb' 24 8, w.extractLsb' 16 8, w.extractLsb' 8 8, w.extractLsb' 0 8]

/-- The 10 bytes of a record, in the order R71 writes them out. -/
def bytesOfRecord (r : Record) : List Byte := r.cmd :: r.size :: (bytesOfWord r.offset ++ bytesOfWord r.data)

/-! ### The PLL configuration word -/

/-- R81: the fields of a PLL word under a layout, as unsigned numbers (MFN as its 10 raw bits). -/
def pllFields (l : PllLayout) (w : Word) : PllFields :=
  { pd := bits w l.pd.lo l.pd.width
    mfd := bits w l.mfd.lo l.mfd.width
    mfi := bits w l.mfi.lo l.mfi.width
    mfn := BitVec.ofNat 10 (bits w l.mfnLo 10) }

/-- The PLL word with the given fields, and 0 in the bits outside every field (R80, R83). -/
def pllWord (l : PllLayout) (f : PllFields) : Word :=
  BitVec.ofNat 32
    (f.pd <<< l.pd.lo ||| f.mfd <<< l.mfd.lo ||| f.mfi <<< l.mfi.lo ||| f.mfn.toNat <<< l.mfnLo)

/-! ### The opcode table's words -/

/-- The bytes of a table word: bit 0 is the least significant bit of the first byte; bytes above `nbits` are 0. -/
def tableBytes (nbits w : Nat) : List Byte :=
  (List.range 10).map fun k => BitVec.ofNat 8 ((w % 2 ^ nbits) >>> (8 * k))

/-- The request a table word stands for. The row PLLW has 32 bits, which are the PLL word (its base frequency has no
bits in the table: 0); every other row has the 8 bits of CMD, and a record has 80. -/
def tableRequest (nbits w : Nat) : Option Request :=
  if nbits = 32 then some (.pllw (BitVec.ofNat 32 w) 0#32)
  else if nbits ≤ 80 then
    match recordOfBytes (tableBytes nbits w) with
    | .ok r => some (.record r 0 [])
    | .error _ => none
  else none

/-- The instruction the decoder reads from a table word, under REF_A, the configuration of `State.reset`
(log entry 4: the rows of variants B and C have the same command bytes as variant A's). -/
def decodeTableWord (nbits w : Nat) : Option Instr := (tableRequest nbits w).map (decode refA)

end Sys2Proof
end

