-- ==== Sys2Proof/Machine/Operands.lean ====
section
/-! DEFINITION. Sys2Proof/Machine/Operands.lean: the operands the rules read: a word of the register file, a named
field of it (spec/00_scope.md R13, spec/10_state.md R29, R30), and the assembled operands of the PLL formula
(spec/30_encoding.md R82). -/

namespace Sys2Proof.Machine

/-- `x[i]` (R11). Every index the rules use is below `N_v`; past the end of the list it is 0, which no run reads. -/
def wordAt (x : List Word) (i : Nat) : Word := x.getD i 0#32

/-- `x.NAME` for a field of several bits: an accessor over the flat array, never a second copy (R13, R24). -/
def fieldAt (x : List Word) (p : FieldPos) : Nat := bits (wordAt x p.idx) p.lo p.width

/-- The divisor of a divider field: `1 + field`, "never zero by construction" (R84). -/
def divisorAt (x : List Word) (p : FieldPos) : Nat := 1 + fieldAt x p

/-- R82 step 1: MFN, sign-extended from 10 bits. -/
def mfnOf (f : PllFields) : Int := sext10 f.mfn

/-- R82 step 2: MFI, clamped to at least 5. -/
def mfiOf (f : PllFields) : Nat := if f.mfi < 5 then 5 else f.mfi

/-- R82 step 3: MFD, stored as "minus one". -/
def mfdOf (f : PllFields) : Nat := f.mfd + 1

/-- R82 step 3: PD, stored as "minus one". -/
def pdOf (f : PllFields) : Nat := f.pd + 1

end Sys2Proof.Machine
end

