-- ==== Sys2Proof/Machine/Flags.lean ====
section
/-! DEFINITION. Sys2Proof/Machine/Flags.lean: the block has no flags, condition codes or predicates (spec/10_state.md
R22). Its only one-bit conditions are the control bits of the register file (R29, R30, spec/30_encoding.md R84) and
whether the variant answers a ClockId (spec/42_clock_query.md R150). -/

namespace Sys2Proof.Machine

/-- A one-bit control field is "set" when it is 1 (R13, R84). -/
def isSet (x : List Word) (p : BitPos) : Bool := (wordAt x p.idx).getLsbD p.bit

/-- `clk in SUPPORTED_v` (R150). -/
def supports (r : Richer) (clk : ClockId) : Bool := r.supported.contains clk

end Sys2Proof.Machine
end

