-- ==== Sys2Proof/Machine/ResetImage.lean ====
section
/-! DEFINITION. Sys2Proof/Machine/ResetImage.lean: the words RESET loads (spec/70_reset_and_hazards.md R221 to R223). -/

namespace Sys2Proof.Machine

/-- The bulk table load: `x[i] <- RESET_v[i]` for every i below `N_v`, and 0 past the end of the table, which only
the baseline's table can leave (R221, R222, R223). -/
def tableImage (c : Config) : List Word := (List.range c.words).map fun i => c.resetTable.getD i 0#32

/-- Variant A's post-load override, a direct store that no write policy filters:
`x[OVR_IDX_A] <- (x[OVR_IDX_A] & ~OVR_MASK_A) | OVR_VAL_A` (R221). -/
def applyOverride (o : Override) (x : List Word) : List Word :=
  x.set o.idx ((x.getD o.idx 0#32 &&& ~~~o.mask) ||| o.val)

/-- The register file after RESET: the table, then, in variant A only, the override as a second write (R37, R233). -/
def resetImage (c : Config) : List Word :=
  match c.ctl with
  | .a _ _ o => applyOverride o (tableImage c)
  | .b _ _ => tableImage c
  | .c => tableImage c

end Sys2Proof.Machine
end

