-- ==== Sys2Proof/Machine/State.lean ====
section
/-! DEFINITION. Sys2Proof/Machine/State.lean: the state of the block, what stops a step, and the state after reset.
The block's own state is `x` and `ready` and nothing else (spec/10_state.md R20). The other fields are the model's own
and no rule of the block reads them: the configuration it is given (spec/00_scope.md R7), the two outputs
(the returned result, R70, and the diagnostic events, spec/60_exceptions.md R190), and the host's transactions
still to be applied (R16). -/

namespace Sys2Proof.Machine

/-- The direction carried by a bad-register-access event (R191). -/
inductive Dir where
  | read
  | write
deriving DecidableEq, Repr

/-- The diagnostic events (spec/60_exceptions.md R191). -/
inductive Diag where
  /-- code 1: an out-of-range access of a richer variant -/
  | badRegisterAccess (device : String) (offset : Word) (dir : Dir)
  /-- code 2: a query of a clock the variant does not answer -/
  | unsupportedClock (clk : ClockId)
deriving DecidableEq, Repr

/-- What a transaction returns (spec/30_encoding.md R70). -/
inductive Result where
  /-- WRITE and RESET return nothing -/
  | nothing
  /-- READ: a register value -/
  | value (v : Word)
  /-- QUERY and the PLL formula: a frequency in hertz -/
  | hz (f : Word)
  /-- SAVE: the version tag and the register image, in index order -/
  | snapshot (version : Nat) (image : List Word)
  /-- RESTORE: accepted -/
  | accepted
  /-- RESTORE: rejected, the load failure shown to the snapshot collaborator -/
  | rejected
deriving DecidableEq, Repr

/-- The block has no fault: "No condition in this core is fatal to the process; there are no exceptions/panics in
normal operation" (spec/60_exceptions.md R193). No meaning raises one, and the type has no constructor. -/
inductive Fault : Type
deriving DecidableEq, Repr

/-- Why the model gives a transaction no meaning (spec/60_exceptions.md R196). All are safe: a claim can say nothing
of a transaction that is refused. -/
inductive Refusal where
  /-- exec's arm of an instruction that has no meaning yet (none in this model). Safe. -/
  | notModelled (mnemonic : String)
  /-- `ReservedCommand`: raised by RESERVED.OP and RESERVED.ARG (R86, R196). Safe. -/
  | reservedCommand
  /-- `NoQueryCapability`: raised by Q.C.REFUSED, a QUERY on the baseline (R186, R196). Safe. -/
  | noQueryCapability
  /-- `BeforeReset`: raised by READ, WRITE, QUERY and SAVE while `ready` is false (R196). Safe. -/
  | beforeReset
  /-- `UndeliverableAccess`: raised by READ and WRITE on an access the platform never delivers (R51, R55, R196). Safe. -/
  | undeliverableAccess
  /-- Raised by the meaning of a row that the decoder of this configuration never selects: another variant's row, or
  an out-of-range or ClockId row with an operand outside it (R73). The model's own; no step raises it. Safe. -/
  | notSelected
deriving DecidableEq, Repr

/-- The state. -/
structure State where
  /-- the parameters of the instance (R7): constant, "no transaction writes it" -/
  cfg : Config
  /-- `x`: the register file, `N_v` words (R20, R23, R26); the empty list while no word has been given a value (R35) -/
  x : List Word
  /-- `ready`: false from construction until the first reset (R20, R35) -/
  ready : Bool
  /-- the diagnostic output: the events raised so far, oldest first (R190) -/
  diags : List Diag
  /-- the output of the last transaction that completed (R70) -/
  result : Result
  /-- the host's requests still to be applied, in their order (R16, R63) -/
  pending : List Request
deriving DecidableEq, Repr

/-- An instance just constructed: not ready, and no word holds a value (R35; log entry 1). -/
def State.constructed (c : Config) : State :=
  { cfg := c, x := [], ready := false, diags := [], result := .nothing, pending := [] }

/-- An instance of any configuration right after its first RESET (R37, R226). -/
def State.resetOf (c : Config) : State :=
  { cfg := c, x := resetImage c, ready := true, diags := [], result := .nothing, pending := [] }

/-- The machine right after reset, under the reference configuration REF_A (log entries 3 and 4). -/
def State.reset : State := State.resetOf refA

end Sys2Proof.Machine
end

