-- ==== Sys2Proof/Machine/Ops.lean ====
section
/-! DEFINITION. Sys2Proof/Machine/Ops.lean: the shared operations the meanings are made of. The block has no trap entry
and no trap return (spec/60_exceptions.md R197, R198): its one "exception" primitive is `raiseDiag`, "log and
continue" (spec/00_scope.md R12). -/

namespace Sys2Proof.Machine

/-- The outcome of a meaning. -/
abbrev Out := Host.Outcome State Fault Refusal

/-! ### State updates -/

/-- Return a result to the host (R70). -/
def State.answer (s : State) (r : Result) : State := { s with result := r }

/-- `raise Diag(e)`: append the event to the diagnostic output (R12, R190). -/
def State.log (s : State) (e : Diag) : State := { s with diags := s.diags ++ [e] }

/-- `x[i] <- v`. -/
def State.setWord (s : State) (i : Nat) (v : Word) : State := { s with x := s.x.set i v }

/-- Give every word of `x` a value and set `ready`: what RESET and an accepted RESTORE do (R220, R131). -/
def State.load (s : State) (image : List Word) : State := { s with x := image, ready := true }

/-- Leave the request at the head of the queue without effect: what becomes of a refused transaction (R196). -/
def State.dropRequest (s : State) : State := { s with pending := s.pending.tail }

/-! ### Diagnostics -/

/-- `raise Diag(e); return r`: the transaction completes with its stated result (R12, R193, R197). -/
def raiseDiag (s : State) (e : Diag) (r : Result) : Out := .next ((s.log e).answer r)

/-- The spec's numeric code of an event (R191). -/
def Diag.code : Diag → Nat
  | .badRegisterAccess _ _ _ => 1
  | .unsupportedClock _ => 2

/-! ### Checks -/

/-- `if not ready : refuse BeforeReset` (R120, R122, R127, R128, R130, R150). -/
def whenReady (s : State) (k : Out) : Out := if s.ready then k else .refused .beforeReset

/-- The row is one that only a richer variant's decoder selects; `k` takes that variant's parameters. -/
def whenRicher (s : State) (k : Richer → Out) : Out :=
  match s.cfg.ctl.richer with
  | some r => k r
  | none => .refused .notSelected

/-- The row is one that only variant A's decoder selects. -/
def whenA (s : State) (k : Richer → FieldsA → Override → Out) : Out :=
  match s.cfg.ctl with
  | .a r f o => k r f o
  | .b _ _ => .refused .notSelected
  | .c => .refused .notSelected

/-- The row is one that only variant B's decoder selects. -/
def whenB (s : State) (k : Richer → FieldsB → Out) : Out :=
  match s.cfg.ctl with
  | .a _ _ _ => .refused .notSelected
  | .b r f => k r f
  | .c => .refused .notSelected

/-- The row is one that only the baseline's decoder selects. -/
def whenC (s : State) (k : Out) : Out :=
  match s.cfg.ctl with
  | .a _ _ _ => .refused .notSelected
  | .b _ _ => .refused .notSelected
  | .c => k

/-! ### Write policies -/

/-- `POLICY_v[i]`: the declared policy, or plain storage (R27). -/
def policyAt (r : Richer) (i : Nat) : Policy := (r.policies.lookup i).getD Policy.plain

/-- The word a guest write of `v` leaves where `old` stood (R122). -/
def applyPolicy (p : Policy) (old v : Word) : Word :=
  match p with
  | .masked w f => (old &&& ~~~w) ||| (v &&& w) ||| f
  | .ignored => old

/-! ### Register access -/

/-- R120, in bounds: return the word unmodified. -/
def readWord (s : State) (offset : Word) : Out := .next (s.answer (.value (wordAt s.x (wordIndex offset))))

/-- R121: one diagnostic, and 0. -/
def readOutOfRange (r : Richer) (s : State) (offset : Word) : Out :=
  raiseDiag s (.badRegisterAccess r.deviceName offset .read) (.value 0#32)

/-- R122, in bounds: store under the word's policy. -/
def writeWord (r : Richer) (s : State) (offset v : Word) : Out :=
  let i := wordIndex offset
  .next ((s.setWord i (applyPolicy (policyAt r i) (wordAt s.x i) v)).answer .nothing)

/-- R123: one diagnostic, and no change of `x`. -/
def writeOutOfRange (r : Richer) (s : State) (offset : Word) : Out :=
  raiseDiag s (.badRegisterAccess r.deviceName offset .write) .nothing

/-! ### Reset -/

/-- R220: load every word, set `ready`, return nothing. -/
def resetTo (s : State) (image : List Word) : Out := .next ((s.load image).answer .nothing)

/-! ### Frequency query -/

/-- R158, R175, R177: one diagnostic, and 0. -/
def unsupportedQuery (s : State) (clk : ClockId) : Out := raiseDiag s (.unsupportedClock clk) (.hz 0#32)

/-- R150 for a ClockId that the variant's chain names: refused before reset; 0 with a diagnostic where the
configuration leaves the clock out of `SUPPORTED_v`; else the clock's frequency. -/
def answerQuery (s : State) (r : Richer) (clk : ClockId) (freq : Word) : Out :=
  whenReady s (if supports r clk then .next (s.answer (.hz freq)) else unsupportedQuery s clk)

end Sys2Proof.Machine
end

