-- ==== Sys2Proof/Machine/Access.lean ====
section
/-! DEFINITION. Sys2Proof/Machine/Access.lean: READ and WRITE (spec/41_register_access.md R120 to R129). The checks
come in the order of spec/60_exceptions.md R195. -/

namespace Sys2Proof.Machine

/-- READ, variants A and B (R120; an out-of-range offset goes on as R121). -/
def execRead (size : Byte) (offset : Word) (s : State) : Out :=
  whenRicher s fun r => whenReady s <|
    if deliverable s.cfg size offset then
      if inBounds s.cfg offset then readWord s offset else readOutOfRange r s offset
    else .refused .undeliverableAccess

/-- READ.OOR, variants A and B (R121). -/
def execReadOor (offset : Word) (s : State) : Out :=
  whenRicher s fun r =>
    if deliverable s.cfg 4#8 offset && !inBounds s.cfg offset then whenReady s (readOutOfRange r s offset)
    else .refused .notSelected

/-- READ.C (R127): the whole word that holds the offset, whatever the size (spec/20_memory.md R57). -/
def execReadC (_size : Byte) (offset : Word) (s : State) : Out :=
  whenC s <| whenReady s <|
    if deliverableC s.cfg offset then readWord s offset else .refused .undeliverableAccess

/-- WRITE, variants A and B (R122; an out-of-range offset goes on as R123). -/
def execWrite (size : Byte) (offset data : Word) (s : State) : Out :=
  whenRicher s fun r => whenReady s <|
    if deliverable s.cfg size offset then
      if inBounds s.cfg offset then writeWord r s offset data else writeOutOfRange r s offset
    else .refused .undeliverableAccess

/-- WRITE.OOR, variants A and B (R123): the value is ignored entirely. -/
def execWriteOor (offset _data : Word) (s : State) : Out :=
  whenRicher s fun r =>
    if deliverable s.cfg 4#8 offset && !inBounds s.cfg offset then whenReady s (writeOutOfRange r s offset)
    else .refused .notSelected

/-- WRITE.C (R128): the whole word is replaced; "no mask, no forced bits, no ignored words". -/
def execWriteC (_size : Byte) (offset data : Word) (s : State) : Out :=
  whenC s <| whenReady s <|
    if deliverableC s.cfg offset then .next ((s.setWord (wordIndex offset) data).answer .nothing)
    else .refused .undeliverableAccess

end Sys2Proof.Machine
end

