-- ==== Sys2Proof/Machine/Pll.lean ====
section
/-! DEFINITION. Sys2Proof/Machine/Pll.lean: the PLL frequency formula (spec/40_pll.md R100 to R103) and the row PLLW,
the formula on its own. -/

namespace Sys2Proof.Machine

/-- `t1 <- 2 *32 (base >> 10)` (R100). -/
def pllT1 (base : Word) : Word := 2#32 * (base >>> 10)

/-- `mfi * mfd + mfn`, exact (R100, R110). -/
def pllSum (f : PllFields) : Int := ((mfiOf f * mfdOf f : Nat) : Int) + mfnOf f

/-- `p <- t1 *32 u32(mfi * mfd + mfn)` (R100, R102). -/
def pllProduct (f : PllFields) (base : Word) : Word := pllT1 base * u32 (pllSum f)

/-- `den <- mfd * pd`, exact and at least 1 (R100, R110). -/
def pllDen (f : PllFields) : Nat := mfdOf f * pdOf f

/-- `q <- p /u den` (R100). -/
def pllQuotient (f : PllFields) (base : Word) : Word := divU (pllProduct f base) (pllDen f)

/-- `compute_pll_frequency(w, base)` (R100): the shift bracketing is part of the function (R101), and the final
`<<32 10` keeps the low 32 bits (R102). -/
def pll (l : PllLayout) (w base : Word) : Word := pllQuotient (pllFields l w) base <<< 10

/-- PLLW: the formula of the installed controller on a word and a base. It is pure and total, reads no register and
raises no diagnostic (R103), so it needs no reset; the baseline has no PLL (the table's row is for A and B). -/
def execPllw (word base : Word) (s : State) : Out :=
  whenRicher s fun r => .next (s.answer (.hz (pll r.layout word base)))

end Sys2Proof.Machine
end

