-- ==== Sys2Proof/Machine/QueryA.lean ====
section
/-! DEFINITION. Sys2Proof/Machine/QueryA.lean: variant A's derivation chain (spec/42_clock_query.md R151 to R158). Every
query walks the chain from the current register words; nothing is cached (spec/10_state.md R25). -/

namespace Sys2Proof.Machine

/-- R152: the crystal when bypassed, else the PLL formula on `MPLL_WORD`. -/
def mpllA (r : Richer) (f : FieldsA) (x : List Word) : Word :=
  if isSet x f.mpllBypass then r.xtal else pll r.layout (wordAt x f.mpllWord) r.xtal

/-- R153: never bypassed. -/
def upllA (r : Richer) (f : FieldsA) (x : List Word) : Word := pll r.layout (wordAt x f.upllWord) r.xtal

/-- R154: `((m *32 3) /u 4) /u d` with the ARM source set, else `m /u d`. -/
def mcuA (r : Richer) (f : FieldsA) (x : List Word) : Word :=
  let m := mpllA r f x
  let d := divisorAt x f.armClkDiv
  if isSet x f.armSrc then divU (divU (m * 3#32) 4) d else divU m d

/-- R155. -/
def ahbA (r : Richer) (f : FieldsA) (x : List Word) : Word := divU (mcuA r f x) (divisorAt x f.ahbClkDiv)

/-- R156: "`ipg = ahb / 2` (fixed, no register field)". -/
def ipgA (r : Richer) (f : FieldsA) (x : List Word) : Word := divU (ahbA r f x) 2

/-- Q.A.NOCLK (R151): 0, with no diagnostic, whatever `SUPPORTED_A` holds. -/
def execQANoclk (s : State) : Out := whenA s fun _ _ _ => whenReady s (.next (s.answer (.hz 0#32)))

/-- Q.A.MPLL (R152). -/
def execQAMpll (s : State) : Out := whenA s fun r f _ => answerQuery s r 1#4 (mpllA r f s.x)

/-- Q.A.UPLL (R153). -/
def execQAUpll (s : State) : Out := whenA s fun r f _ => answerQuery s r 2#4 (upllA r f s.x)

/-- Q.A.MCU (R154). -/
def execQAMcu (s : State) : Out := whenA s fun r f _ => answerQuery s r 3#4 (mcuA r f s.x)

/-- Q.A.AHB (R155). -/
def execQAAhb (s : State) : Out := whenA s fun r f _ => answerQuery s r 4#4 (ahbA r f s.x)

/-- Q.A.IPG (R156). -/
def execQAIpg (s : State) : Out := whenA s fun r f _ => answerQuery s r 5#4 (ipgA r f s.x)

/-- Q.A.32K (R157): a constant. -/
def execQA32k (s : State) : Out := whenA s fun r _ _ => answerQuery s r 6#4 r.ckil

/-- Q.A.UNRECOGNISED, ClockId 7 to 15 (R158). -/
def execQAUnrecognised (clk : ClockId) (s : State) : Out :=
  whenA s fun _ _ _ => if 7 ≤ clk.toNat then whenReady s (unsupportedQuery s clk) else .refused .notSelected

end Sys2Proof.Machine
end

