-- ==== Sys2Proof/Machine/QueryB.lean ====
section
/-! DEFINITION. Sys2Proof/Machine/QueryB.lean: variant B's derivation chain (spec/42_clock_query.md R170 to R177), and
the QUERY of the baseline, which has none (R186). -/

namespace Sys2Proof.Machine

/-- R171, an internal node: `CKIL_FREQ *32 1024` when REFSEL holds the low-frequency code, else the crystal. -/
def refclkB (r : Richer) (f : FieldsB) (x : List Word) : Word :=
  if fieldAt x f.refsel = f.refselLfCode then r.ckil * 1024#32 else r.xtal

/-- R172: the reference when bypassed or disabled, else the PLL formula fed by the reference. -/
def mcuB (r : Richer) (f : FieldsB) (x : List Word) : Word :=
  if isSet x f.bypassMode || !isSet x f.pllEnable then refclkB r f x
  else pll r.layout (wordAt x f.mpllWord) (refclkB r f x)

/-- R173. -/
def hspB (r : Richer) (f : FieldsB) (x : List Word) : Word := divU (mcuB r f x) (divisorAt x f.hspDiv)

/-- R174: a register field, not a fixed 2. -/
def ipgB (r : Richer) (f : FieldsB) (x : List Word) : Word := divU (hspB r f x) (divisorAt x f.ipgDiv)

/-- Q.B.NOCLK (R170). -/
def execQBNoclk (s : State) : Out := whenB s fun _ _ => whenReady s (.next (s.answer (.hz 0#32)))

/-- Q.B.MPLL.UNSUPPORTED (R175): ClockId 1. -/
def execQBMpllUnsupported (s : State) : Out := whenB s fun _ _ => whenReady s (unsupportedQuery s 1#4)

/-- Q.B.UPLL.UNSUPPORTED (R175): ClockId 2. -/
def execQBUpllUnsupported (s : State) : Out := whenB s fun _ _ => whenReady s (unsupportedQuery s 2#4)

/-- Q.B.MCU (R172). -/
def execQBMcu (s : State) : Out := whenB s fun r f => answerQuery s r 3#4 (mcuB r f s.x)

/-- Q.B.HSP (R173). -/
def execQBHsp (s : State) : Out := whenB s fun r f => answerQuery s r 4#4 (hspB r f s.x)

/-- Q.B.IPG (R174). -/
def execQBIpg (s : State) : Out := whenB s fun r f => answerQuery s r 5#4 (ipgB r f s.x)

/-- Q.B.32K (R176): a constant. -/
def execQB32k (s : State) : Out := whenB s fun r _ => answerQuery s r 6#4 r.ckil

/-- Q.B.UNRECOGNISED, ClockId 7 to 15 (R177). -/
def execQBUnrecognised (clk : ClockId) (s : State) : Out :=
  whenB s fun _ _ => if 7 ≤ clk.toNat then whenReady s (unsupportedQuery s clk) else .refused .notSelected

/-- Q.C.REFUSED (R186): refused with `NoQueryCapability`, before the `ready` check (spec/60_exceptions.md R195). -/
def execQCRefused (_clk : ClockId) (s : State) : Out := whenC s (.refused .noQueryCapability)

end Sys2Proof.Machine
end

