-- ==== Sys2Proof/Machine/Reserved.lean ====
section
/-! DEFINITION. Sys2Proof/Machine/Reserved.lean: the reserved command bytes, which the spec refuses by name
(spec/30_encoding.md R86, spec/60_exceptions.md R196). -/

namespace Sys2Proof.Machine

/-- RESERVED.OP (R86). -/
def execReservedOp (_cmd : Byte) (_s : State) : Out := .refused .reservedCommand

/-- RESERVED.ARG (R86). -/
def execReservedArg (_cmd : Byte) (_s : State) : Out := .refused .reservedCommand

end Sys2Proof.Machine
end

