-- ==== Sys2Proof/Machine/Reset.lean ====
section
/-! DEFINITION. Sys2Proof/Machine/Reset.lean: RESET of each variant (spec/70_reset_and_hazards.md R220 to R226). It is
never refused and needs no earlier reset; no write policy applies to it (R224). -/

namespace Sys2Proof.Machine

/-- RESET.A (R221): the bulk table load, then the override as a second write. -/
def execResetA (s : State) : Out := whenA s fun _ _ o => resetTo s (applyOverride o (tableImage s.cfg))

/-- RESET.B (R222). -/
def execResetB (s : State) : Out := whenB s fun _ _ => resetTo s (tableImage s.cfg)

/-- RESET.C (R223): 0 in the words past the end of the table. -/
def execResetC (s : State) : Out := whenC s (resetTo s (tableImage s.cfg))

end Sys2Proof.Machine
end

