-- ==== Sys2Proof/Machine/Snapshot.lean ====
section
/-! DEFINITION. Sys2Proof/Machine/Snapshot.lean: SAVE and RESTORE, all variants (spec/41_register_access.md R130 to
R133). -/

namespace Sys2Proof.Machine

/-- SAVE (R130): the version tag and the flat array in index order. -/
def execSave (s : State) : Out := whenReady s (.next (s.answer (.snapshot s.cfg.snapVersion s.x)))

/-- RESTORE (R131): exact, with no mask, forced bits or override; on a version or length mismatch nothing changes and
no diagnostic is raised. Valid before any RESET. -/
def execRestore (version : Nat) (image : List Word) (s : State) : Out :=
  if version = s.cfg.snapVersion ∧ image.length = s.cfg.words then .next ((s.load image).answer .accepted)
  else .next (s.answer .rejected)

end Sys2Proof.Machine
end

