-- ==== Sys2Proof/Machine/Dispatch.lean ====
section
/-! DEFINITION. Sys2Proof/Machine/Dispatch.lean: one arm per constructor of Instr. -/

namespace Sys2Proof.Machine

def exec (i : Instr) (s : State) : Host.Outcome State Fault Refusal :=
  match i with
  | .read size offset => Sys2Proof.Machine.execRead size offset s
  | .readOor offset => Sys2Proof.Machine.execReadOor offset s
  | .readC size offset => Sys2Proof.Machine.execReadC size offset s
  | .write size offset data => Sys2Proof.Machine.execWrite size offset data s
  | .writeOor offset data => Sys2Proof.Machine.execWriteOor offset data s
  | .writeC size offset data => Sys2Proof.Machine.execWriteC size offset data s
  | .resetA => Sys2Proof.Machine.execResetA s
  | .resetB => Sys2Proof.Machine.execResetB s
  | .resetC => Sys2Proof.Machine.execResetC s
  | .qANoclk => Sys2Proof.Machine.execQANoclk s
  | .qAMpll => Sys2Proof.Machine.execQAMpll s
  | .qAUpll => Sys2Proof.Machine.execQAUpll s
  | .qAMcu => Sys2Proof.Machine.execQAMcu s
  | .qAAhb => Sys2Proof.Machine.execQAAhb s
  | .qAIpg => Sys2Proof.Machine.execQAIpg s
  | .qA32k => Sys2Proof.Machine.execQA32k s
  | .qAUnrecognised clk => Sys2Proof.Machine.execQAUnrecognised clk s
  | .qBNoclk => Sys2Proof.Machine.execQBNoclk s
  | .qBMpllUnsupported => Sys2Proof.Machine.execQBMpllUnsupported s
  | .qBUpllUnsupported => Sys2Proof.Machine.execQBUpllUnsupported s
  | .qBMcu => Sys2Proof.Machine.execQBMcu s
  | .qBHsp => Sys2Proof.Machine.execQBHsp s
  | .qBIpg => Sys2Proof.Machine.execQBIpg s
  | .qB32k => Sys2Proof.Machine.execQB32k s
  | .qBUnrecognised clk => Sys2Proof.Machine.execQBUnrecognised clk s
  | .qCRefused clk => Sys2Proof.Machine.execQCRefused clk s
  | .save => Sys2Proof.Machine.execSave s
  | .restore version image => Sys2Proof.Machine.execRestore version image s
  | .reservedOp cmd => Sys2Proof.Machine.execReservedOp cmd s
  | .reservedArg cmd => Sys2Proof.Machine.execReservedArg cmd s
  | .pllw word base => Sys2Proof.Machine.execPllw word base s

end Sys2Proof.Machine
end

