-- ==== Sys2Proof/Machine/Step.lean ====
section
/-! DEFINITION. Sys2Proof/Machine/Step.lean: one step applies the host's next request (spec/00_scope.md R16,
spec/20_memory.md R63). The block has no program counter (spec/10_state.md R21): "fetching" is taking the request at
the head of the queue. -/

namespace Sys2Proof.Machine

/-- One step: the next request is taken off the queue, decoded under the instance's configuration and carried out.
With no request the block does nothing (log entry 7). -/
def step (s : State) : Host.Outcome State Fault Refusal :=
  match s.pending with
  | [] => .next s
  | q :: rest => exec (decode s.cfg q) { s with pending := rest }

/-- `s` with the request a table word stands for as the next one the host applies; unchanged where no row has so many
bits. -/
def State.withFetchWord (s : State) (nbits w : Nat) : State :=
  match tableRequest nbits w with
  | some q => { s with pending := q :: s.pending }
  | none => s

end Sys2Proof.Machine
end

