-- ==== Sys2Proof/Machine/Session.lean ====
section
/-! DEFINITION. Sys2Proof/Machine/Session.lean: a host's session. "A refused transaction changes nothing, returns
nothing and is not a final state of a run" (spec/60_exceptions.md R196): where a step refuses, the session goes on with
the host's next request from the unchanged state. -/

namespace Sys2Proof.Machine

/-- `n` requests of the host, one after another; a refused one is left without effect. -/
def session : Nat → State → State
  | 0, s => s
  | n + 1, s =>
    match step s with
    | .next t => session n t
    | .refused _ => session n s.dropRequest
    | .fault e => nomatch e

end Sys2Proof.Machine
end

