-- ==== Sys2Proof/WellFormed.lean ====
section
/-! DEFINITION. Sys2Proof/WellFormed.lean: which configurations the spec admits (spec/00_scope.md R7 and the decisions
it names), which instructions the decoder selects for a configuration (spec/30_encoding.md R73, R90), and which
records and PLL fields are in the encoding's own form (R71, R81). -/

namespace Sys2Proof

/-! ### Configurations -/

/-- The slice lies inside a 32-bit word and is not empty. -/
def Slice.wf (f : Slice) : Bool := 0 < f.width && f.lo + f.width ≤ 32

/-- No bit lies in both slices. -/
def Slice.disjoint (f g : Slice) : Bool := f.lo + f.width ≤ g.lo || g.lo + g.width ≤ f.lo

/-- MFN's bits: always 10 of them (R80: "MFN stays 10 bits"). -/
def PllLayout.mfn (l : PllLayout) : Slice := ⟨l.mfnLo, 10⟩

/-- R80: "MFN stays 10 bits and the fields do not overlap". -/
def PllLayout.wf (l : PllLayout) : Bool :=
  l.pd.wf && l.mfd.wf && l.mfi.wf && l.mfn.wf
    && l.pd.disjoint l.mfd && l.pd.disjoint l.mfi && l.pd.disjoint l.mfn
    && l.mfd.disjoint l.mfi && l.mfd.disjoint l.mfn && l.mfi.disjoint l.mfn

/-- The bit is a bit of a word of the register file. -/
def BitPos.wf (n : Nat) (p : BitPos) : Bool := p.idx < n && p.bit < 32

/-- The field lies in a word of the register file. -/
def FieldPos.wf (n : Nat) (p : FieldPos) : Bool := p.idx < n && 0 < p.width && p.lo + p.width ≤ 32

def FieldsA.wf (n : Nat) (f : FieldsA) : Bool :=
  f.mpllWord < n && f.upllWord < n && f.mpllBypass.wf n && f.armSrc.wf n && f.armClkDiv.wf n && f.ahbClkDiv.wf n

def FieldsB.wf (n : Nat) (f : FieldsB) : Bool :=
  f.mpllWord < n && f.refsel.wf n && decide (f.refselLfCode < 2 ^ f.refsel.width) && f.bypassMode.wf n
    && f.pllEnable.wf n && f.hspDiv.wf n && f.ipgDiv.wf n

/-- How many bits of the word are set. -/
def onesCount (w : Word) : Nat := ((List.range 32).filter (fun k => w.getLsbD k)).length

/-- R221: "`OVR_MASK_A` has exactly two bits set, and `OVR_VAL_A & ~OVR_MASK_A = 0`". -/
def Override.wf (n : Nat) (o : Override) : Bool :=
  o.idx < n && onesCount o.mask == 2 && (o.val &&& ~~~o.mask) == 0#32

/-- The parameters A and B share: one policy a word (R27), a legal PLL layout (R80), and no supported ClockId that
the variant's chain does not name (spec/92_eei_decisions.md D7). -/
def Richer.wf (n : Nat) (nodes : List ClockId) (r : Richer) : Bool :=
  r.policies.all (fun p => p.1 < n) && decide (r.policies.map Prod.fst).Nodup && r.layout.wf
    && r.supported.all (fun c => nodes.contains c)

/-- The ClockIds with a rule in variant A's chain: 0 to 6 (D7). -/
def clocksA : List ClockId := [0, 1, 2, 3, 4, 5, 6]

/-- The ClockIds with a rule in variant B's chain: 0, 3, 4, 5, 6 (D7). -/
def clocksB : List ClockId := [0, 3, 4, 5, 6]

/-- A configuration the spec admits: R7's types and inequalities, `RESET_v` as long as R221 to R223 take it,
`WINDOW_v ≤ 2^32` (spec/30_encoding.md R74). -/
def Config.wf (c : Config) : Bool :=
  decide (1 ≤ c.words) && decide (c.window ≤ 2 ^ 32) &&
    match c.ctl with
    | .a r f o =>
      decide (4 * c.words ≤ c.window) && c.resetTable.length == c.words && r.wf c.words clocksA && f.wf c.words
        && o.wf c.words
    | .b r f =>
      decide (4 * c.words ≤ c.window) && c.resetTable.length == c.words && r.wf c.words clocksB && f.wf c.words
    | .c => c.window == 4 * c.words && decide (c.resetTable.length ≤ c.words)

/-! ### Instructions -/

/-- The offset and size select the out-of-range row: a delivered access with `4·N_v ≤ offset` (R87, R121, R123). -/
def outOfRangeForm (c : Config) (size : Byte) (offset : Word) : Bool :=
  size == 4#8 && offset.toNat % 4 == 0 && decide (4 * c.words ≤ offset.toNat) && decide (offset.toNat < c.window)

/-- The decoder of this configuration selects this row of the opcode table for some record (R73, R90). -/
def Instr.wf (c : Config) : Instr → Bool
  | .read size offset => c.ctl.variant != .C && !outOfRangeForm c size offset
  | .readOor offset => c.ctl.variant != .C && outOfRangeForm c 4#8 offset
  | .readC _ _ => c.ctl.variant == .C
  | .write size offset _ => c.ctl.variant != .C && !outOfRangeForm c size offset
  | .writeOor offset _ => c.ctl.variant != .C && outOfRangeForm c 4#8 offset
  | .writeC _ _ _ => c.ctl.variant == .C
  | .resetA => c.ctl.variant == .A
  | .resetB => c.ctl.variant == .B
  | .resetC => c.ctl.variant == .C
  | .qANoclk => c.ctl.variant == .A
  | .qAMpll => c.ctl.variant == .A
  | .qAUpll => c.ctl.variant == .A
  | .qAMcu => c.ctl.variant == .A
  | .qAAhb => c.ctl.variant == .A
  | .qAIpg => c.ctl.variant == .A
  | .qA32k => c.ctl.variant == .A
  | .qAUnrecognised clk => c.ctl.variant == .A && decide (7 ≤ clk.toNat)
  | .qBNoclk => c.ctl.variant == .B
  | .qBMpllUnsupported => c.ctl.variant == .B
  | .qBUpllUnsupported => c.ctl.variant == .B
  | .qBMcu => c.ctl.variant == .B
  | .qBHsp => c.ctl.variant == .B
  | .qBIpg => c.ctl.variant == .B
  | .qB32k => c.ctl.variant == .B
  | .qBUnrecognised clk => c.ctl.variant == .B && decide (7 ≤ clk.toNat)
  | .qCRefused _ => c.ctl.variant == .C
  | .save => true
  | .restore _ _ => true
  | .reservedOp cmd => decide (0x60 ≤ cmd.toNat)
  | .reservedArg cmd => decide (cmd.toNat < 0x60) && cmd.toNat / 16 != 3 && cmd.toNat % 16 != 0
  | .pllw _ _ => c.ctl.variant != .C

/-! ### Encoded forms -/

/-- The record is written as R71 writes it: SIZE and OFFSET are 0 but for READ and WRITE, DATA is 0 but for WRITE, and
only RESTORE carries a version and an image. -/
def Request.canonical : Request → Bool
  | .pllw _ _ => true
  | .record r version image =>
    (r.cmd == 0x00#8 || r.cmd == 0x10#8 || (r.size == 0#8 && r.offset == 0#32))
      && (r.cmd == 0x10#8 || r.data == 0#32)
      && (r.cmd == 0x50#8 || (version == 0 && image.isEmpty))

/-- The field values fit the layout's widths (R81). -/
def PllFields.wf (l : PllLayout) (f : PllFields) : Bool :=
  decide (f.pd < 2 ^ l.pd.width) && decide (f.mfd < 2 ^ l.mfd.width) && decide (f.mfi < 2 ^ l.mfi.width)

end Sys2Proof
end

