-- ==== Sys2Proof/Safety.lean ====
section
/-! DEFINITION. Sys2Proof/Safety.lean: what counts as a safe state and a safe run, in the terms the claims use: the
invariant of the machine, the host's duties (spec/60_exceptions.md R206) and the order in which a transaction is
checked (R195). -/

namespace Sys2Proof.Machine

/-- The register file holds exactly `N_v` words (spec/10_state.md R23, R26). The block's only memory is its register
file (spec/00_scope.md R11): a list of words by index, with an entry for every word, so that equal register files are
equal data. -/
abbrev Memory.wf (c : Config) (x : List Word) : Prop := x.length = c.words

/-- The event is one that the rules let this configuration raise: an access out of range and inside the window, under
the device's own name (R121, R123), or a ClockId other than NOCLK that the variant does not answer (R150); and none on
the baseline (R129). -/
def diagAllowed (c : Config) : Diag → Bool
  | .badRegisterAccess device offset _ =>
    match c.ctl.richer with
    | some r => device == r.deviceName && outOfRangeForm c 4#8 offset
    | none => false
  | .unsupportedClock clk =>
    match c.ctl.richer with
    | some r => clk != 0#4 && !r.supported.contains clk
    | none => false

/-- The invariant: an admitted configuration, a register file of `N_v` words once the instance is ready, and a
diagnostic log of allowed events only. -/
abbrev State.Inv (s : State) : Prop :=
  s.cfg.wf = true ∧ (s.ready = true → Memory.wf s.cfg s.x) ∧ ∀ e ∈ s.diags, diagAllowed s.cfg e = true

end Sys2Proof.Machine

namespace Sys2Proof

open Sys2Proof.Machine

/-! ### Classes of transactions -/

/-- A QUERY of a richer variant (R150). -/
def Instr.isQuery : Instr → Bool
  | .qANoclk | .qAMpll | .qAUpll | .qAMcu | .qAAhb | .qAIpg | .qA32k | .qAUnrecognised _ => true
  | .qBNoclk | .qBMpllUnsupported | .qBUpllUnsupported | .qBMcu | .qBHsp | .qBIpg | .qB32k => true
  | .qBUnrecognised _ => true
  | _ => false

/-- A READ, of any variant. -/
def Instr.isRead : Instr → Bool
  | .read _ _ | .readOor _ | .readC _ _ => true
  | _ => false

/-- A WRITE, of any variant. -/
def Instr.isWrite : Instr → Bool
  | .write _ _ _ | .writeOor _ _ | .writeC _ _ _ => true
  | _ => false

/-- RESET, of any variant. -/
def Instr.isReset : Instr → Bool
  | .resetA | .resetB | .resetC => true
  | _ => false

/-- RESTORE. -/
def Instr.isRestore : Instr → Bool
  | .restore _ _ => true
  | _ => false

/-- A reserved command (R86). -/
def Instr.isReserved : Instr → Bool
  | .reservedOp _ | .reservedArg _ => true
  | _ => false

/-- A QUERY on the baseline (R186). -/
def Instr.isQueryC : Instr → Bool
  | .qCRefused _ => true
  | _ => false

/-- READ, WRITE, QUERY and SAVE are refused while `ready` is false (R196). -/
def Instr.needsReady (i : Instr) : Bool := i.isRead || i.isWrite || i.isQuery || i == .save

/-- The access breaks the delivery conditions (R51, R55). -/
def Instr.undeliverable (c : Config) : Instr → Bool
  | .read size offset => !deliverable c size offset
  | .write size offset _ => !deliverable c size offset
  | .readC _ offset => !deliverableC c offset
  | .writeC _ offset _ => !deliverableC c offset
  | _ => false

end Sys2Proof

namespace Sys2Proof.Machine

/-- Under this configuration the command byte selects this instruction, whatever the other fields of the record (the
"Encoding" line of the rules). -/
def selects (c : Config) (cmd : Byte) (i : Instr) : Prop :=
  ∀ (r : Record) (version : Nat) (image : List Word), r.cmd = cmd → decode c (.record r version image) = i

/-- The word a guest write of `v` leaves in word `i` where `old` stood, by the declared policies (R27, R122): under
`Masked(W, F)` it is `(old & ~W) | (v & W) | F`, under `Ignored` it is `old`, with no declared policy it is `v`. -/
def storedAs (r : Richer) (i : Nat) (old v new : Word) : Prop :=
  (∀ m f, (i, Policy.masked m f) ∈ r.policies → new = ((old &&& ~~~m) ||| (v &&& m) ||| f))
    ∧ ((i, Policy.ignored) ∈ r.policies → new = old)
    ∧ ((∀ p, (i, p) ∉ r.policies) → new = v)

/-! ### The order of the checks -/

/-- R195: the first check that applies decides: the command is reserved; a QUERY on the baseline; not ready; the
access undeliverable. No value: the transaction runs. -/
def refusalOf (s : State) (i : Instr) : Option Refusal :=
  if i.isReserved then some .reservedCommand
  else if i.isQueryC then some .noQueryCapability
  else if i.needsReady && !s.ready then some .beforeReset
  else if i.undeliverable s.cfg then some .undeliverableAccess
  else none

/-- The host keeps its duties for this transaction (R206): a command of the map, no QUERY on the baseline, a RESET or
RESTORE first, and a delivered access. -/
def hostDuty (s : State) (i : Instr) : Bool :=
  !i.isReserved && !i.isQueryC && (!i.needsReady || s.ready) && !i.undeliverable s.cfg

end Sys2Proof.Machine
end

