-- ==== Sys2Proof/Certificates/Slice0/Obligations.lean ====
section
/-! DEFINITION. Sys2Proof/Certificates/Slice0/Obligations.lean: the statements for the provers. Every statement holds for
every configuration (a state carries its own); where it names a part of the configuration it says so in a hypothesis.
A result statement is an equation `exec i s = .next { s with … }`, which is also its frame: every field it does not
name (the configuration, the register file, `ready`, the diagnostic log, the host's queue) is unchanged. -/

open Sys2Proof Sys2Proof.Machine

/-! ### Encoding -/

/-- One command byte of every family, written out from spec/30_encoding.md R72 and R90, decodes to its row; READ and
WRITE with the operands of the record (R71). -/
def Obligations.CommandBytesSelectTheirRows : Prop :=
  decode refA (.record ⟨0x00, 0x04, 0x00000008, 0⟩ 0 []) = .read 4 8
    ∧ decode refA (.record ⟨0x00, 0x04, 0x00000070, 0⟩ 0 []) = .readOor 0x70
    ∧ decode refC (.record ⟨0x00, 0x01, 0x00000009, 0⟩ 0 []) = .readC 1 9
    ∧ decode refA (.record ⟨0x10, 0x04, 0x00000008, 0xD0032000⟩ 0 []) = .write 4 8 0xD0032000
    ∧ decode refB (.record ⟨0x10, 0x04, 0x00000068, 1⟩ 0 []) = .writeOor 0x68 1
    ∧ decode refC (.record ⟨0x10, 0x01, 0x00000005, 0xAB⟩ 0 []) = .writeC 1 5 0xAB
    ∧ decode refA (.record ⟨0x20, 0, 0, 0⟩ 0 []) = .resetA
    ∧ decode refB (.record ⟨0x20, 0, 0, 0⟩ 0 []) = .resetB
    ∧ decode refC (.record ⟨0x20, 0, 0, 0⟩ 0 []) = .resetC
    ∧ decode refA (.record ⟨0x35, 0, 0, 0⟩ 0 []) = .qAIpg
    ∧ decode refB (.record ⟨0x33, 0, 0, 0⟩ 0 []) = .qBMcu
    ∧ decode refA (.record ⟨0x3F, 0, 0, 0⟩ 0 []) = .qAUnrecognised 15
    ∧ decode refC (.record ⟨0x30, 0, 0, 0⟩ 0 []) = .qCRefused 0
    ∧ decode refB (.record ⟨0x40, 0, 0, 0⟩ 0 []) = .save
    ∧ decode refC (.record ⟨0x50, 0, 0, 0⟩ 1 [7]) = .restore 1 [7]
    ∧ decode refA (.record ⟨0x60, 0, 0, 0⟩ 0 []) = .reservedOp 0x60
    ∧ decode refA (.record ⟨0x51, 0, 0, 0⟩ 0 []) = .reservedArg 0x51

/-- For every well-formed instruction of every configuration, decoding its encoding gives it back, with every operand
(R71 to R73, R90). -/
def Obligations.DecodeEncodeIsIdentity : Prop :=
  ∀ (c : Config) (i : Instr), i.wf c = true → decode c (encode i) = i

/-- For every request in R71's own form (the fields a command does not take are 0), encoding what it decodes to gives
it back: no two canonical requests stand for one instruction. -/
def Obligations.EncodeDecodeIsIdentityOnCanonicalRequests : Prop :=
  ∀ (c : Config) (q : Request), q.canonical = true → encode (decode c q) = q

/-- The decoder is total, and what it selects for a record is always a row of the installed variant, with operands
that belong to that row: out of range for the READ.OOR and WRITE.OOR rows, 7 to 15 for the unrecognised ClockIds, a
reserved byte for the reserved rows (R73). -/
def Obligations.EveryRecordSelectsARowOfItsVariant : Prop :=
  ∀ (c : Config) (r : Record) (version : Nat) (image : List Word), (decodeRecord c r version image).wf c = true

/-- Every record is 10 bytes and every 10 bytes are a record, uniquely; a byte string of another length is rejected by
name (R88). The byte order of OFFSET and DATA within the record is the model's choice, log entry 6. -/
def Obligations.RecordsAreTenBytes : Prop :=
  (∀ r : Record, recordOfBytes (bytesOfRecord r) = .ok r)
    ∧ (∀ bs : List Byte, bs.length = 10 → ∃ r, recordOfBytes bs = .ok r ∧ bytesOfRecord r = bs)
    ∧ (∀ bs : List Byte, bs.length < 10 → recordOfBytes bs = .error .truncated)
    ∧ (∀ bs : List Byte, 10 < bs.length → recordOfBytes bs = .error .overlong)

/-- R86 (the spec's own decision D25): a command byte with OP 0x6 to 0xF, or a nonzero ARG with an OP other than QUERY,
is refused with ReservedCommand in every state; a QUERY of any ClockId never is. -/
def Obligations.ReservedCommandsAreRefused : Prop :=
  (∀ (s : State) (r : Record) (version : Nat) (image : List Word),
      (0x60 ≤ r.cmd.toNat ∨ (r.cmd.toNat / 16 ≠ 3 ∧ r.cmd.toNat % 16 ≠ 0)) →
        exec (decode s.cfg (.record r version image)) s = .refused .reservedCommand)
    ∧ (∀ (s : State) (r : Record) (version : Nat) (image : List Word),
      r.cmd.toNat / 16 = 3 → exec (decode s.cfg (.record r version image)) s ≠ .refused .reservedCommand)
    ∧ (∀ (s : State) (cmd : Byte),
      exec (.reservedOp cmd) s = .refused .reservedCommand ∧ exec (.reservedArg cmd) s = .refused .reservedCommand)

/-- The four fields of a PLL word under any legal layout (R80: MFN of 10 bits, no overlap): writing them into a word
and extracting them gives them back. -/
def Obligations.PllWordFieldsRoundTrip : Prop :=
  ∀ (l : PllLayout) (f : PllFields), l.wf = true → f.wf l = true → pllFields l (pllWord l f) = f

/-! ### The PLL formula -/

/-- R81, R82 under the default layout, which is the spec's decision D1 (log entry 2): the raw fields, and the operands
assembled from them with their ranges. -/
def Obligations.PllOperandsUnderDefaultLayout : Prop :=
  ∀ w : Word,
    let f := pllFields defaultLayout w
    f.pd = w.toNat / 2 ^ 26 % 16 ∧ f.mfd = w.toNat / 2 ^ 16 % 1024 ∧ f.mfi = w.toNat / 2 ^ 10 % 16
      ∧ f.mfn.toNat = w.toNat % 1024
      ∧ mfnOf f = (if w.toNat % 1024 < 512 then ((w.toNat % 1024 : Nat) : Int) else ((w.toNat % 1024 : Nat) : Int) - 1024)
      ∧ mfiOf f = max 5 (w.toNat / 2 ^ 10 % 16)
      ∧ mfdOf f = w.toNat / 2 ^ 16 % 1024 + 1
      ∧ pdOf f = w.toNat / 2 ^ 26 % 16 + 1
      ∧ -512 ≤ mfnOf f ∧ mfnOf f ≤ 511 ∧ 5 ≤ mfiOf f ∧ mfiOf f ≤ 15
      ∧ 1 ≤ mfdOf f ∧ mfdOf f ≤ 1024 ∧ 1 ≤ pdOf f ∧ pdOf f ≤ 16

/-- R100 and R102 in exact integer arithmetic, for any layout: the product is reduced modulo 2^32, the quotient is floor
division, the final shift keeps the low 32 bits (the widths are the spec's decision D2, log entry 8). PLLW answers that
value on variants A and B and changes nothing but the result. R103 makes the formula a function of the word and the base
alone; that it can be asked for on its own, ready or not, is the model's choice (log entry 12: the spec says the PLL word
is "not a transaction"). -/
def Obligations.PllFormulaIsModularArithmetic : Prop :=
  ∀ (s : State) (r : Richer) (w base : Word), s.cfg.ctl.richer = some r →
    let f := pllFields r.layout w
    let num := (((max 5 f.mfi * (f.mfd + 1) : Nat) : Int) + f.mfn.toInt) % 2 ^ 32
    let p := 2 * (base.toNat / 1024) * num.toNat % 2 ^ 32
    let q := p / ((f.mfd + 1) * (f.pd + 1))
    (pllProduct f base).toNat = p ∧ (pllQuotient f base).toNat = q
      ∧ ∃ v : Word, v = pll r.layout w base ∧ v.toNat = q * 1024 % 2 ^ 32
        ∧ exec (.pllw w base) s = .next { s with result := .hz v }

/-- R83: under the default layout two words that differ only in bits [31:30] and [15:14] give the same frequency. -/
def Obligations.PllIgnoresBitsOutsideItsFields : Prop :=
  ∀ (w w' base : Word),
    (∀ k, k < 32 → k ≠ 31 → k ≠ 30 → k ≠ 15 → k ≠ 14 → w.getLsbD k = w'.getLsbD k) →
      pll defaultLayout w base = pll defaultLayout w' base

/-- R104 (after conflict C1): the exact set of words and bases for which the result is 0; a base of 0 gives 0. -/
def Obligations.PllIsZeroExactlyWhen : Prop :=
  ∀ (l : PllLayout) (w base : Word),
    (pll l w base = 0#32 ↔
      base.toNat < 1024 ∨ pllProduct (pllFields l w) base = 0#32
        ∨ (pllProduct (pllFields l w) base).toNat < pllDen (pllFields l w)
        ∨ 2 ^ 22 ∣ (pllQuotient (pllFields l w) base).toNat)
    ∧ pll l w 0#32 = 0#32

/-- R105: the result depends on the base only through `base >> 10`. -/
def Obligations.PllReadsOnlyHighBaseBits : Prop :=
  ∀ (l : PllLayout) (w base base' : Word), base.toNat / 1024 = base'.toNat / 1024 → pll l w base = pll l w base'

/-- R106: every result is a multiple of 1024. -/
def Obligations.PllResultIsMultipleOf1024 : Prop :=
  ∀ (l : PllLayout) (w base : Word), 1024 ∣ (pll l w base).toNat

/-- R107: MFI field values 0 to 4 give the same result as 5, whatever the other fields and the base. -/
def Obligations.PllClampsMfiToFive : Prop :=
  ∀ (l : PllLayout) (w w' base : Word),
    (pllFields l w).mfi < 5 → pllFields l w' = { pllFields l w with mfi := 5 } → pll l w base = pll l w' base

/-- R108, default layout: for a numerator that is not negative and a base below 138,556,416 the product does not wrap,
and where the quotient is below 2^22 the result is the exact value. (The bound 138,556,416 is conflict C7's.) -/
def Obligations.PllDoesNotWrapBelowTheBounds : Prop :=
  ∀ (w base : Word),
    let f := pllFields defaultLayout w
    let n := (mfiOf f * mfdOf f : Nat) + mfnOf f
    0 ≤ n →
      (2 * (base.toNat / 1024) * n.toNat < 2 ^ 32 →
        2 * (base.toNat / 1024) * n.toNat / (mfdOf f * pdOf f) < 2 ^ 22 →
          (pll defaultLayout w base).toNat = 2 * (base.toNat / 1024) * n.toNat / (mfdOf f * pdOf f) * 1024)
      ∧ (base.toNat < 138556416 → 2 * (base.toNat / 1024) * n.toNat < 2 ^ 32)

/-- R109 and R110, default layout: the signed sum is exact and in -507 .. 15,871; it is negative exactly when
`mfi·mfd < 512` and `mfn < -(mfi·mfd)`, and then its u32 value is `2^32 + sum`; `t1` does not wrap; the divisor is
1 .. 16,384. -/
def Obligations.PllIntermediatesStayInRange : Prop :=
  ∀ (w base : Word),
    let f := pllFields defaultLayout w
    pllSum f ≤ 15871 ∧ -507 ≤ pllSum f
      ∧ pllSum f = (mfiOf f * mfdOf f : Nat) + mfnOf f
      ∧ (pllSum f < 0 ↔ mfiOf f * mfdOf f < 512 ∧ mfnOf f < -((mfiOf f * mfdOf f : Nat) : Int))
      ∧ ((u32 (pllSum f)).toNat : Int) = (if pllSum f < 0 then 2 ^ 32 + pllSum f else pllSum f)
      ∧ (pllT1 base).toNat = 2 * (base.toNat / 1024) ∧ (pllT1 base).toNat ≤ 2 * (2 ^ 22 - 1)
      ∧ 1 ≤ pllDen f ∧ pllDen f ≤ 1024 * 16

/-! ### READ and WRITE -/

/-- R120: READ of variants A and B. Before the first reset it is refused; with a wrong size, a misaligned offset or an
offset at or past the window it is refused; in bounds it returns the word unmodified and changes nothing but the
result; out of range it goes on as READ.OOR. -/
def Obligations.ReadReturnsTheWord : Prop :=
  ∀ (s : State) (r : Richer) (size : Byte) (offset : Word), s.cfg.ctl.richer = some r → s.Inv →
    (s.ready = false → exec (.read size offset) s = .refused .beforeReset)
      ∧ (s.ready = true → size ≠ 4#8 ∨ offset.toNat % 4 ≠ 0 ∨ s.cfg.window ≤ offset.toNat →
          exec (.read size offset) s = .refused .undeliverableAccess)
      ∧ (s.ready = true → size = 4#8 → offset.toNat % 4 = 0 → offset.toNat < 4 * s.cfg.words →
          decode s.cfg (.record ⟨0x00#8, size, offset, 0#32⟩ 0 []) = .read size offset
            ∧ ∃ v, s.x[offset.toNat / 4]? = some v
              ∧ exec (.read size offset) s = .next { s with result := .value v })
      ∧ (s.ready = true → size = 4#8 → offset.toNat % 4 = 0 → 4 * s.cfg.words ≤ offset.toNat →
          offset.toNat < s.cfg.window → exec (.read size offset) s = exec (.readOor offset) s)

/-- R121: an out-of-range READ of variants A and B returns 0 and appends exactly one diagnostic, with the device name, the
offset and the direction. -/
def Obligations.OutOfRangeReadReturnsZeroAndLogs : Prop :=
  ∀ (s : State) (r : Richer) (offset : Word), s.cfg.ctl.richer = some r → s.ready = true → offset.toNat % 4 = 0 →
    4 * s.cfg.words ≤ offset.toNat → offset.toNat < s.cfg.window →
      decode s.cfg (.record ⟨0x00#8, 4#8, offset, 0#32⟩ 0 []) = .readOor offset
        ∧ exec (.readOor offset) s =
          .next { s with
            result := .value 0#32
            diags := s.diags ++ [.badRegisterAccess r.deviceName offset .read] }

/-- R122: WRITE of variants A and B, in bounds: a word of policy `Masked(W, F)` becomes `(old & ~W) | (v & W) | F`, an
`Ignored` word stays, a word with no declared policy takes `v` exactly (R27). Nothing but that word and the result
changes. The refusals are those of READ, and an out-of-range offset goes on as WRITE.OOR. -/
def Obligations.WriteAppliesThePolicy : Prop :=
  ∀ (s : State) (r : Richer) (size : Byte) (offset v : Word), s.cfg.ctl.richer = some r → s.Inv →
    (s.ready = false → exec (.write size offset v) s = .refused .beforeReset)
      ∧ (s.ready = true → size ≠ 4#8 ∨ offset.toNat % 4 ≠ 0 ∨ s.cfg.window ≤ offset.toNat →
          exec (.write size offset v) s = .refused .undeliverableAccess)
      ∧ (s.ready = true → size = 4#8 → offset.toNat % 4 = 0 → offset.toNat < 4 * s.cfg.words →
          decode s.cfg (.record ⟨0x10#8, size, offset, v⟩ 0 []) = .write size offset v
            ∧ ∃ old, s.x[offset.toNat / 4]? = some old
              ∧ (∀ m f, (offset.toNat / 4, Policy.masked m f) ∈ r.policies →
                  exec (.write size offset v) s =
                    .next { s with
                      x := s.x.set (offset.toNat / 4) ((old &&& ~~~m) ||| (v &&& m) ||| f)
                      result := .nothing })
              ∧ ((offset.toNat / 4, Policy.ignored) ∈ r.policies →
                  exec (.write size offset v) s = .next { s with result := .nothing })
              ∧ ((∀ p, (offset.toNat / 4, p) ∉ r.policies) →
                  exec (.write size offset v) s =
                    .next { s with x := s.x.set (offset.toNat / 4) v, result := .nothing }))
      ∧ (s.ready = true → size = 4#8 → offset.toNat % 4 = 0 → 4 * s.cfg.words ≤ offset.toNat →
          offset.toNat < s.cfg.window → exec (.write size offset v) s = exec (.writeOor offset v) s)

/-- R123: an out-of-range WRITE of variants A and B changes no word and appends exactly one diagnostic; the value is
ignored. -/
def Obligations.OutOfRangeWriteOnlyLogs : Prop :=
  ∀ (s : State) (r : Richer) (offset v : Word), s.cfg.ctl.richer = some r → s.ready = true → offset.toNat % 4 = 0 →
    4 * s.cfg.words ≤ offset.toNat → offset.toNat < s.cfg.window →
      decode s.cfg (.record ⟨0x10#8, 4#8, offset, v⟩ 0 []) = .writeOor offset v
        ∧ exec (.writeOor offset v) s =
          .next { s with
            result := .nothing
            diags := s.diags ++ [.badRegisterAccess r.deviceName offset .write] }

/-- R124: a WRITE of a masked word followed by a READ of it returns `(old & ~W) | (new & W) | F`. -/
def Obligations.MaskedWriteReadsBackUnderTheMask : Prop :=
  ∀ (s : State) (r : Richer) (i : Nat) (m f old v : Word), s.cfg.ctl.richer = some r → s.Inv → s.ready = true →
    (i, Policy.masked m f) ∈ r.policies → s.x[i]? = some old →
      ∃ t u, exec (.write 4#8 (BitVec.ofNat 32 (4 * i)) v) s = .next t
        ∧ exec (.read 4#8 (BitVec.ofNat 32 (4 * i))) t = .next u
        ∧ u.result = .value ((old &&& ~~~m) ||| (v &&& m) ||| f)

/-- R125: a WRITE of an `Ignored` word leaves it as it was, for every value, and reports success. -/
def Obligations.IgnoredWordKeepsItsValue : Prop :=
  ∀ (s : State) (r : Richer) (i : Nat) (v : Word), s.cfg.ctl.richer = some r → s.Inv → s.ready = true →
    (i, Policy.ignored) ∈ r.policies →
      exec (.write 4#8 (BitVec.ofNat 32 (4 * i)) v) s = .next { s with result := .nothing }

/-- R126 for variants A and B, R127 and R128 for the baseline: a completed WRITE changes at most the word `offset >> 2`,
and only a word of the register file; a READ and an out-of-range WRITE change none. No access changes the number of
words. -/
def Obligations.AccessesTouchAtMostOneWord : Prop :=
  ∀ (s t : State) (size : Byte) (offset v : Word), s.Inv →
    (exec (.write size offset v) s = .next t ∨ exec (.writeC size offset v) s = .next t →
        t.x.length = s.x.length ∧ (∀ j, j ≠ offset.toNat / 4 → t.x[j]? = s.x[j]?)
          ∧ (t.x ≠ s.x → offset.toNat / 4 < s.cfg.words))
      ∧ (exec (.writeOor offset v) s = .next t ∨ exec (.read size offset) s = .next t
            ∨ exec (.readOor offset) s = .next t ∨ exec (.readC size offset) s = .next t → t.x = s.x)

/-- R60: repeating an access changes nothing more. A second READ returns what the first returned; a second WRITE of the
same value leaves the registers as the first left them. -/
def Obligations.AccessesAreIdempotent : Prop :=
  ∀ (i : Instr) (s t : State), s.Inv → i.isRead = true ∨ i.isWrite = true → exec i s = .next t →
    ∃ u, exec i t = .next u ∧ u.result = t.result ∧ u.x = t.x ∧ u.ready = t.ready

/-- R129 and R54, with R57 for the sizes and alignments: that a narrow or unaligned access is an access to the whole word
is the spec's own choice D17 (log entry 16). On the baseline every access inside the window completes, for every size and alignment: a READ
returns the word that holds the offset, a WRITE stores its value unchanged there. A word changes only to the value that
is written to it, restored into it or reset into it, and no transaction of the baseline raises a diagnostic. -/
def Obligations.BaselineIsPlainStorage : Prop :=
  ∀ s : State, s.cfg.ctl = .c → s.Inv → s.ready = true →
    (∀ (size : Byte) (offset : Word), offset.toNat < s.cfg.window →
        ∃ v, s.x[offset.toNat / 4]? = some v ∧ exec (.readC size offset) s = .next { s with result := .value v })
      ∧ (∀ (size : Byte) (offset v : Word), offset.toNat < s.cfg.window →
        offset.toNat / 4 < s.x.length
          ∧ exec (.writeC size offset v) s =
            .next { s with x := s.x.set (offset.toNat / 4) v, result := .nothing })
      ∧ (∀ (i : Instr) (t : State), exec i s = .next t →
        t.diags = s.diags
          ∧ ∀ j, t.x[j]? ≠ s.x[j]? →
            (∃ size offset v, i = .writeC size offset v ∧ offset.toNat / 4 = j ∧ t.x[j]? = some v)
              ∨ (i = .resetC ∧ t.x[j]? = (resetImage s.cfg)[j]?)
              ∨ ∃ version image, i = .restore version image ∧ t.x[j]? = image[j]?)

/-! ### Snapshot -/

/-- R130: SAVE returns the version tag and all words in index order, and changes nothing; before the first reset it is
refused. -/
def Obligations.SaveReturnsTheImage : Prop :=
  ∀ s : State, selects s.cfg 0x40#8 .save
    ∧ (s.ready = true → exec .save s = .next { s with result := .snapshot s.cfg.snapVersion s.x })
    ∧ (s.ready = false → exec .save s = .refused .beforeReset)

/-- R131: RESTORE of the right version and length is accepted, before a reset too, and sets every word exactly; any other
is rejected and changes nothing but the result. -/
def Obligations.RestoreIsExactOrRejected : Prop :=
  ∀ (s : State) (version : Nat) (image : List Word),
    decode s.cfg (.record ⟨0x50#8, 0#8, 0#32, 0#32⟩ version image) = .restore version image
      ∧ (version = s.cfg.snapVersion → image.length = s.cfg.words →
        exec (.restore version image) s = .next { s with x := image, ready := true, result := .accepted })
      ∧ (version ≠ s.cfg.snapVersion ∨ image.length ≠ s.cfg.words →
        exec (.restore version image) s = .next { s with result := .rejected })

/-- R132: what SAVE returns is accepted by RESTORE in any state of the same configuration, ready or not, and brings back
the saved register file: later READ and QUERY results are then those of the saved state. -/
def Obligations.SnapshotRoundTripIsLossless : Prop :=
  ∀ (s t u : State) (version : Nat) (image : List Word), s.Inv → exec .save s = .next t →
    t.result = .snapshot version image → u.cfg = s.cfg →
      exec (.restore version image) u = .next { u with x := s.x, ready := true, result := .accepted }
        ∧ ∀ (i : Instr) (a : State), i.isRead = true ∨ i.isQuery = true → exec i s = .next a →
          ∃ b, exec i { u with x := s.x, ready := true, result := .accepted } = .next b ∧ b.result = a.result

/-! ### Reset -/

/-- R221: RESET.A loads the table and then forces the override's two bits in one word; it sets `ready` and changes nothing
else but the result. In the override word the bits of the mask hold OVR_VAL and the others the table's. -/
def Obligations.ResetALoadsTheTableThenOverrides : Prop :=
  ∀ (s : State) (r : Richer) (f : FieldsA) (o : Override), s.cfg.ctl = .a r f o → s.cfg.wf = true →
    selects s.cfg 0x20#8 .resetA ∧ ∃ x : List Word, exec .resetA s = .next { s with x := x, ready := true, result := .nothing }
      ∧ x.length = s.cfg.words
      ∧ (∀ i, i ≠ o.idx → x[i]? = s.cfg.resetTable[i]?)
      ∧ ∃ a b, s.cfg.resetTable[o.idx]? = some a ∧ x[o.idx]? = some b ∧ b = ((a &&& ~~~o.mask) ||| o.val)
        ∧ ∀ k, k < 32 → b.getLsbD k = if o.mask.getLsbD k then o.val.getLsbD k else a.getLsbD k

/-- R222: RESET.B loads the table exactly, and sets `ready`. -/
def Obligations.ResetBLoadsTheTable : Prop :=
  ∀ (s : State) (r : Richer) (f : FieldsB), s.cfg.ctl = .b r f → s.cfg.wf = true →
    selects s.cfg 0x20#8 .resetB ∧ exec .resetB s = .next { s with x := s.cfg.resetTable, ready := true, result := .nothing }

/-- R223: RESET.C loads the table into the initial words and 0 into the trailing ones, and sets `ready`. -/
def Obligations.ResetCLoadsTheTableAndZeros : Prop :=
  ∀ s : State, s.cfg.ctl = .c → s.cfg.wf = true →
    selects s.cfg 0x20#8 .resetC ∧ exec .resetC s =
      .next { s with
        x := s.cfg.resetTable ++ List.replicate (s.cfg.words - s.cfg.resetTable.length) 0#32
        ready := true
        result := .nothing }

/-- R220 and R225: the RESET of the installed variant is never refused, ready or not, and raises no diagnostic; the state
it leaves does not depend on the state before it, so a second RESET changes nothing. -/
def Obligations.ResetIsHistoryFree : Prop :=
  ∀ (i : Instr) (s s' : State), i.isReset = true → i.wf s.cfg = true → s'.cfg = s.cfg →
    ∃ x : List Word, exec i s = .next { s with x := x, ready := true, result := .nothing }
      ∧ exec i s' = .next { s' with x := x, ready := true, result := .nothing }

/-! ### QUERY, variant A -/

/-- R151, R170: NOCLK yields 0 with no diagnostic in both richer variants, whatever the supported set. -/
def Obligations.NoClockIsZero : Prop :=
  (∀ (s : State) (r : Richer) (f : FieldsA) (o : Override), s.cfg.ctl = .a r f o → s.ready = true →
      selects s.cfg 0x30#8 .qANoclk ∧ exec .qANoclk s = .next { s with result := .hz 0#32 })
    ∧ (∀ (s : State) (r : Richer) (f : FieldsB), s.cfg.ctl = .b r f → s.ready = true →
      selects s.cfg 0x30#8 .qBNoclk ∧ exec .qBNoclk s = .next { s with result := .hz 0#32 })

/-- R152: the MPLL output is the crystal when the bypass bit is set, else the PLL formula on the MPLL word and the
crystal; the registers are the state's own words. -/
def Obligations.MpllIsCrystalOrPll : Prop :=
  ∀ (s : State) (r : Richer) (f : FieldsA) (o : Override), s.cfg.ctl = .a r f o → s.Inv → s.ready = true →
    1#4 ∈ r.supported →
      selects s.cfg 0x31#8 .qAMpll ∧ ∃ word ctrl, s.x[f.mpllWord]? = some word ∧ s.x[f.mpllBypass.idx]? = some ctrl
        ∧ exec .qAMpll s =
          .next { s with
            result := .hz (if ctrl.getLsbD f.mpllBypass.bit then r.xtal else pll r.layout word r.xtal) }

/-- R153: the UPLL output is the PLL formula on the UPLL word and the crystal, never bypassed. -/
def Obligations.UpllIsNeverBypassed : Prop :=
  ∀ (s : State) (r : Richer) (f : FieldsA) (o : Override), s.cfg.ctl = .a r f o → s.Inv → s.ready = true →
    2#4 ∈ r.supported →
      selects s.cfg 0x32#8 .qAUpll ∧ ∃ word, s.x[f.upllWord]? = some word
        ∧ exec .qAUpll s = .next { s with result := .hz (pll r.layout word r.xtal) }

/-- R154 in exact integer arithmetic (the widths are the spec's decision D3, log entry 8): with the ARM source clear the
MCU clock is `mpll / d`, with it set `((mpll · 3) mod 2^32 / 4) / d`, where d is one more than the divider field. The
clock has this value in every configuration, whether or not the MPLL or the MCU ClockId is supported; the query answers it
where the MCU ClockId is. -/
def Obligations.McuAFollowsTheArmSource : Prop :=
  ∀ (s : State) (r : Richer) (f : FieldsA) (o : Override), s.cfg.ctl = .a r f o → s.Inv → s.ready = true →
    selects s.cfg 0x33#8 .qAMcu ∧ ∃ src div bypass word, s.x[f.armSrc.idx]? = some src
      ∧ s.x[f.armClkDiv.idx]? = some div
      ∧ s.x[f.mpllBypass.idx]? = some bypass ∧ s.x[f.mpllWord]? = some word
      ∧ (let m := (if bypass.getLsbD f.mpllBypass.bit then r.xtal else pll r.layout word r.xtal).toNat
         let d := 1 + div.toNat / 2 ^ f.armClkDiv.lo % 2 ^ f.armClkDiv.width
         (mcuA r f s.x).toNat = if src.getLsbD f.armSrc.bit then m * 3 % 2 ^ 32 / 4 / d else m / d)
      ∧ (3#4 ∈ r.supported → exec .qAMcu s = .next { s with result := .hz (mcuA r f s.x) })

/-- R155, R156: the AHB clock is the MCU clock divided by one more than the AHB divider field, the IPG clock is half the
AHB clock, for every divider setting. The upstream clocks are evaluated internally (R150): each query needs only its own
ClockId to be supported, and changes nothing but the result. The MCU clock `mcuA` is that of McuAFollowsTheArmSource. -/
def Obligations.AhbAndIpgDivideTheMcuClock : Prop :=
  ∀ (s : State) (r : Richer) (f : FieldsA) (o : Override), s.cfg.ctl = .a r f o → s.Inv → s.ready = true →
    selects s.cfg 0x34#8 .qAAhb ∧ selects s.cfg 0x35#8 .qAIpg ∧ ∃ div a g, s.x[f.ahbClkDiv.idx]? = some div
      ∧ BitVec.toNat a = (mcuA r f s.x).toNat / (1 + div.toNat / 2 ^ f.ahbClkDiv.lo % 2 ^ f.ahbClkDiv.width)
      ∧ BitVec.toNat g = a.toNat / 2
      ∧ (4#4 ∈ r.supported → exec .qAAhb s = .next { s with result := .hz a })
      ∧ (5#4 ∈ r.supported → exec .qAIpg s = .next { s with result := .hz g })

/-- R157, R176: the 32 kHz clock is the configured constant, whatever the registers. -/
def Obligations.LowFrequencyClockIsConstant : Prop :=
  (∀ (s : State) (r : Richer) (f : FieldsA) (o : Override), s.cfg.ctl = .a r f o → s.ready = true →
      6#4 ∈ r.supported → selects s.cfg 0x36#8 .qA32k ∧ exec .qA32k s = .next { s with result := .hz r.ckil })
    ∧ (∀ (s : State) (r : Richer) (f : FieldsB), s.cfg.ctl = .b r f → s.ready = true →
      6#4 ∈ r.supported → selects s.cfg 0x36#8 .qB32k ∧ exec .qB32k s = .next { s with result := .hz r.ckil })

/-- R160: variant A's answers depend on the registers only through the two PLL words, the two control bits and the two
divider fields; and UPLL's only through its own word (R159, law 3). -/
def Obligations.QueriesOfADependOnNamedFieldsOnly : Prop :=
  ∀ (s s' : State) (r : Richer) (f : FieldsA) (o : Override), s.cfg.ctl = .a r f o → s'.cfg = s.cfg →
    s.Inv → s'.Inv → s.ready = true → s'.ready = true → s.x[f.upllWord]? = s'.x[f.upllWord]? →
      (∀ t, exec .qAUpll s = .next t → ∃ t', exec .qAUpll s' = .next t' ∧ t'.result = t.result)
        ∧ (s.x[f.mpllWord]? = s'.x[f.mpllWord]? → isSet s.x f.mpllBypass = isSet s'.x f.mpllBypass →
            isSet s.x f.armSrc = isSet s'.x f.armSrc → fieldAt s.x f.armClkDiv = fieldAt s'.x f.armClkDiv →
              fieldAt s.x f.ahbClkDiv = fieldAt s'.x f.ahbClkDiv →
                ∀ (i : Instr) (t : State), i.isQuery = true → exec i s = .next t →
                  ∃ t', exec i s' = .next t' ∧ t'.result = t.result)

/-! ### QUERY, variant B -/

/-- R172 with R171: the MCU clock is the reference clock when bypassed or when the PLL is not enabled, else the PLL formula
on the MPLL word fed by the reference; the reference is `CKIL_FREQ · 1024` (mod 2^32: the width is the spec's decision D3,
log entry 8) when REFSEL holds the low-frequency code (decision D12), else the crystal. The clock has this value in every
configuration; the query answers it where the MCU ClockId is supported. -/
def Obligations.McuBIsReferenceOrPll : Prop :=
  ∀ (s : State) (r : Richer) (f : FieldsB), s.cfg.ctl = .b r f → s.Inv → s.ready = true →
    selects s.cfg 0x33#8 .qBMcu ∧ ∃ word sel byp en ref, s.x[f.mpllWord]? = some word ∧ s.x[f.refsel.idx]? = some sel
      ∧ s.x[f.bypassMode.idx]? = some byp ∧ s.x[f.pllEnable.idx]? = some en
      ∧ BitVec.toNat ref =
        (if sel.toNat / 2 ^ f.refsel.lo % 2 ^ f.refsel.width = f.refselLfCode then r.ckil.toNat * 1024 % 2 ^ 32
          else r.xtal.toNat)
      ∧ mcuB r f s.x =
        (if byp.getLsbD f.bypassMode.bit = true ∨ en.getLsbD f.pllEnable.bit = false then ref
          else pll r.layout word ref)
      ∧ (3#4 ∈ r.supported → exec .qBMcu s = .next { s with result := .hz (mcuB r f s.x) })

/-- R173, R174: HSP is the MCU clock divided by one more than the HSP divider field, IPG is HSP divided by one more than
the IPG divider field. The upstream clocks are evaluated internally (R150): each query needs only its own ClockId to be
supported, and changes nothing but the result. The MCU clock `mcuB` is that of McuBIsReferenceOrPll. -/
def Obligations.HspAndIpgDivideTheMcuClock : Prop :=
  ∀ (s : State) (r : Richer) (f : FieldsB), s.cfg.ctl = .b r f → s.Inv → s.ready = true →
    selects s.cfg 0x34#8 .qBHsp ∧ selects s.cfg 0x35#8 .qBIpg ∧ ∃ hdiv idiv h g, s.x[f.hspDiv.idx]? = some hdiv
      ∧ s.x[f.ipgDiv.idx]? = some idiv
      ∧ BitVec.toNat h = (mcuB r f s.x).toNat / (1 + hdiv.toNat / 2 ^ f.hspDiv.lo % 2 ^ f.hspDiv.width)
      ∧ BitVec.toNat g = h.toNat / (1 + idiv.toNat / 2 ^ f.ipgDiv.lo % 2 ^ f.ipgDiv.width)
      ∧ (4#4 ∈ r.supported → exec .qBHsp s = .next { s with result := .hz h })
      ∧ (5#4 ∈ r.supported → exec .qBIpg s = .next { s with result := .hz g })

/-- R178, law 4: variant B's answers depend on the registers only through the MPLL word and the five named fields. -/
def Obligations.QueriesOfBDependOnNamedFieldsOnly : Prop :=
  ∀ (s s' : State) (r : Richer) (f : FieldsB), s.cfg.ctl = .b r f → s'.cfg = s.cfg → s.Inv → s'.Inv →
    s.ready = true → s'.ready = true → s.x[f.mpllWord]? = s'.x[f.mpllWord]? →
      fieldAt s.x f.refsel = fieldAt s'.x f.refsel → isSet s.x f.bypassMode = isSet s'.x f.bypassMode →
        isSet s.x f.pllEnable = isSet s'.x f.pllEnable → fieldAt s.x f.hspDiv = fieldAt s'.x f.hspDiv →
          fieldAt s.x f.ipgDiv = fieldAt s'.x f.ipgDiv →
            ∀ (i : Instr) (t : State), i.isQuery = true → exec i s = .next t →
              ∃ t', exec i s' = .next t' ∧ t'.result = t.result

/-! ### QUERY of a clock that is not answered -/

/-- R158, R177: a ClockId of 7 to 15 yields 0 with exactly one diagnostic that carries it, in both richer variants. -/
def Obligations.UnrecognisedClockIsZeroAndLogs : Prop :=
  (∀ (s : State) (r : Richer) (f : FieldsA) (o : Override) (clk : ClockId), s.cfg.ctl = .a r f o → s.ready = true →
      7 ≤ clk.toNat →
        selects s.cfg (0x3#4 ++ clk) (.qAUnrecognised clk) ∧ exec (.qAUnrecognised clk) s =
          .next { s with result := .hz 0#32, diags := s.diags ++ [.unsupportedClock clk] })
    ∧ (∀ (s : State) (r : Richer) (f : FieldsB) (clk : ClockId), s.cfg.ctl = .b r f → s.ready = true →
      7 ≤ clk.toNat →
        selects s.cfg (0x3#4 ++ clk) (.qBUnrecognised clk) ∧ exec (.qBUnrecognised clk) s =
          .next { s with result := .hz 0#32, diags := s.diags ++ [.unsupportedClock clk] })

/-- R175 (the spec's decision D7): variant B answers a query of the MPLL or the UPLL with 0 and one diagnostic. -/
def Obligations.VariantBHasNoPllOutputs : Prop :=
  ∀ (s : State) (r : Richer) (f : FieldsB), s.cfg.ctl = .b r f → s.ready = true →
    selects s.cfg 0x31#8 .qBMpllUnsupported ∧ selects s.cfg 0x32#8 .qBUpllUnsupported
      ∧ exec .qBMpllUnsupported s =
        .next { s with result := .hz 0#32, diags := s.diags ++ [.unsupportedClock 1#4] }
      ∧ exec .qBUpllUnsupported s =
        .next { s with result := .hz 0#32, diags := s.diags ++ [.unsupportedClock 2#4] }

/-- R79 with R150: on a richer variant a QUERY record with any ClockId is a valid transaction. Outside the supported set
(and not NOCLK) it yields 0 and one diagnostic and computes no frequency; NOCLK yields 0, and a supported clock a
frequency, with no diagnostic. -/
def Obligations.QueryOfAnyClockIdCompletes : Prop :=
  ∀ (s : State) (r : Richer) (q : Record) (version : Nat) (image : List Word), s.cfg.ctl.richer = some r →
    s.cfg.wf = true → s.ready = true → q.cmd.toNat / 16 = 3 →
      (argOf q.cmd).toNat = q.cmd.toNat % 16
        ∧ (argOf q.cmd ≠ 0#4 → argOf q.cmd ∉ r.supported →
            exec (decode s.cfg (.record q version image)) s =
              .next { s with result := .hz 0#32, diags := s.diags ++ [.unsupportedClock (argOf q.cmd)] })
        ∧ (argOf q.cmd = 0#4 →
            exec (decode s.cfg (.record q version image)) s = .next { s with result := .hz 0#32 })
        ∧ (argOf q.cmd ≠ 0#4 → argOf q.cmd ∈ r.supported →
            ∃ v, exec (decode s.cfg (.record q version image)) s = .next { s with result := .hz v })

/-- R186 (the spec's decision D24): on the baseline a QUERY with any command byte from 0x30 to 0x3F is refused with
NoQueryCapability, ready or not. -/
def Obligations.BaselineRefusesQueries : Prop :=
  ∀ (s : State) (q : Record) (version : Nat) (image : List Word), s.cfg.ctl = .c → q.cmd.toNat / 16 = 3 →
    exec (decode s.cfg (.record q version image)) s = .refused .noQueryCapability
      ∧ ∀ clk, exec (.qCRefused clk) s = .refused .noQueryCapability

/-- R232 for the PLL words: a WRITE to a PLL word, of any policy, is seen by the very next query: with the PLL in use the
answer is the formula on the word as the write left it (`storedAs`, R122). The MPLL and UPLL words of variant A, the MPLL
word of variant B. -/
def Obligations.NextQuerySeesTheWrittenWord : Prop :=
  (∀ (s : State) (r : Richer) (f : FieldsA) (o : Override) (v : Word), s.cfg.ctl = .a r f o → s.Inv →
      s.ready = true →
        (∃ old new, s.x[f.mpllWord]? = some old ∧ storedAs r f.mpllWord old v new
          ∧ (let t := { s with x := s.x.set f.mpllWord new, result := .nothing }
             exec (.write 4#8 (BitVec.ofNat 32 (4 * f.mpllWord)) v) s = .next t
              ∧ (1#4 ∈ r.supported → isSet t.x f.mpllBypass = false →
                  exec .qAMpll t = .next { t with result := .hz (pll r.layout new r.xtal) })))
          ∧ ∃ old new, s.x[f.upllWord]? = some old ∧ storedAs r f.upllWord old v new
            ∧ (let t := { s with x := s.x.set f.upllWord new, result := .nothing }
               exec (.write 4#8 (BitVec.ofNat 32 (4 * f.upllWord)) v) s = .next t
                ∧ (2#4 ∈ r.supported →
                    exec .qAUpll t = .next { t with result := .hz (pll r.layout new r.xtal) })))
    ∧ (∀ (s : State) (r : Richer) (f : FieldsB) (v : Word), s.cfg.ctl = .b r f → s.Inv → s.ready = true →
        ∃ old new, s.x[f.mpllWord]? = some old ∧ storedAs r f.mpllWord old v new
          ∧ (let t := { s with x := s.x.set f.mpllWord new, result := .nothing }
             exec (.write 4#8 (BitVec.ofNat 32 (4 * f.mpllWord)) v) s = .next t
              ∧ (3#4 ∈ r.supported → isSet t.x f.bypassMode = false → isSet t.x f.pllEnable = true →
                  exec .qBMcu t = .next { t with result := .hz (pll r.layout new (refclkB r f t.x)) })))

/-! ### The whole machine -/

/-- A step takes the host's next request off the queue and is exec of the instruction it decodes to (R16, R63). With no
request the block does nothing: the model's choice, log entry 7. -/
def Obligations.StepRunsTheNextRequest : Prop :=
  (∀ (s : State) (q : Request) (rest : List Request), s.pending = q :: rest →
      step s = exec (decode s.cfg q) { s with pending := rest })
    ∧ (∀ s : State, s.pending = [] → step s = .next s)

/-- Every step keeps the invariant: an admitted configuration, a register file of exactly `N_v` words once ready (R23,
R26), and a log of allowed events only (R121, R123, R129, R150). -/
def Obligations.StepKeepsTheInvariant : Prop :=
  ∀ s t : State, s.Inv → step s = .next t → t.Inv

/-- The invariant holds of the machine after reset, and of an instance of every admitted configuration, just constructed
or just reset. The configuration of `State.reset` is REF_A, a choice of the spec's D26 (log entry 3). -/
def Obligations.InvariantHoldsAtReset : Prop :=
  State.reset.Inv ∧ State.reset.ready = true
    ∧ ∀ c : Config, c.wf = true → (State.constructed c).Inv ∧ (State.resetOf c).Inv

/-- The state after reset is what the RESET of the installed variant makes of the constructed instance (R35, R226). -/
def Obligations.ResetStateIsResetOfConstructed : Prop :=
  ∀ (c : Config) (i : Instr), i.isReset = true → i.wf c = true →
    exec i (State.constructed c) = .next (State.resetOf c)

/-- R190, R197: a transaction that completes appends at most one event to the log and never removes or changes one; it
leaves the configuration (R2, R7) and the host's queue alone, and never clears `ready` (R35). -/
def Obligations.LogOnlyGrowsAndReadyStays : Prop :=
  ∀ (i : Instr) (s t : State), exec i s = .next t →
    (t.diags = s.diags ∨ ∃ e, t.diags = s.diags ++ [e]) ∧ t.cfg = s.cfg ∧ t.pending = s.pending
      ∧ (s.ready = true → t.ready = true)
      ∧ (t.ready ≠ s.ready → i.isReset = true ∨ i.isRestore = true)

/-- R206, R65: the register file changes only by WRITE, RESET and RESTORE; every other transaction leaves all of it. -/
def Obligations.OnlyThreeTransactionsChangeRegisters : Prop :=
  ∀ (i : Instr) (s t : State), exec i s = .next t → t.x ≠ s.x →
    i.isWrite = true ∨ i.isReset = true ∨ i.isRestore = true

/-- R28, R32: whatever the transaction, but for RESET and RESTORE, an `Ignored` word keeps its value; in a masked word a
bit in neither W nor F keeps its value, and a bit of F, in W or not, keeps its value or becomes 1. A frame of every
transaction, not an invariant of the state. -/
def Obligations.ReadOnlyBitsSurviveEveryTransaction : Prop :=
  ∀ (i : Instr) (s t : State) (r : Richer), s.cfg.ctl.richer = some r → s.Inv → i.isReset = false →
    i.isRestore = false → exec i s = .next t →
      (∀ j, (j, Policy.ignored) ∈ r.policies → t.x[j]? = s.x[j]?)
        ∧ (∀ j m f k, (j, Policy.masked m f) ∈ r.policies → m.getLsbD k = false ∨ f.getLsbD k = true →
            (wordAt t.x j).getLsbD k = (wordAt s.x j).getLsbD k
              ∨ (f.getLsbD k = true ∧ (wordAt t.x j).getLsbD k = true))

/-- R195, R196: for every instruction the decoder selects, the first check that applies decides the refusal: reserved
command, QUERY on the baseline, not ready (RESET and RESTORE exempt), undeliverable access; with none the transaction
completes. That PLLW passes every check, ready or not, is the model's choice (log entry 12). -/
def Obligations.RefusalsFollowTheOrderOfChecks : Prop :=
  ∀ (s : State) (i : Instr), i.wf s.cfg = true →
    (∀ reason, exec i s = .refused reason ↔ refusalOf s i = some reason)
      ∧ (refusalOf s i = none ↔ ∃ t, exec i s = .next t)

/-- R193: no condition is fatal. A transaction within the host's duties (R206) returns its result, one outside them is
refused, and no instruction in any state faults (immediate here, because `Fault` has no constructor). That PLLW, which is
no transaction, completes ready or not is the model's choice (log entry 12). -/
def Obligations.DeliveredTransactionsReturnTheirResult : Prop :=
  (∀ (s : State) (i : Instr), i.wf s.cfg = true → hostDuty s i = true → ∃ t, exec i s = .next t)
    ∧ (∀ (s : State) (i : Instr), i.wf s.cfg = true → hostDuty s i = false → ∃ reason, exec i s = .refused reason)
    ∧ (∀ (s : State) (e : Fault), step s ≠ .fault e)

/-- R196: a refused transaction changes nothing and is not the final state of a session: the session goes on with the
host's next request from the same registers, `ready`, log and result. -/
def Obligations.RefusedTransactionChangesNothing : Prop :=
  ∀ (n : Nat) (s : State) (q : Request) (rest : List Request) (reason : Refusal), s.pending = q :: rest →
    step s = .refused reason → session (n + 1) s = session n { s with pending := rest }

/-- R25, R190: what a transaction does depends on the configuration, the register file and `ready` alone: not on the
diagnostic log, on earlier results or on the requests to come. In two states that agree on those three, the same
instruction is refused alike, or completes with the same registers, result and new events. -/
def Obligations.OutputsAreNeverReadBack : Prop :=
  ∀ (i : Instr) (s s' : State), s'.cfg = s.cfg → s'.x = s.x → s'.ready = s.ready →
    (∀ reason, exec i s = .refused reason → exec i s' = .refused reason)
      ∧ (∀ t, exec i s = .next t →
          ∃ t' events, exec i s' = .next t' ∧ t'.x = t.x ∧ t'.ready = t.ready ∧ t'.result = t.result
            ∧ t.diags = s.diags ++ events ∧ t'.diags = s'.diags ++ events)

/-- R232 for the control fields: after a WRITE of any word of the register file, of any policy, the very next query reads
each control field that lies in that word from the word as the write left it (`storedAs`, R122). The other operands are
those of the state after the write. -/
def Obligations.NextQuerySeesTheWrittenControlField : Prop :=
  (∀ (s : State) (r : Richer) (f : FieldsA) (o : Override) (i : Nat) (v : Word), s.cfg.ctl = .a r f o → s.Inv →
      s.ready = true → i < s.cfg.words →
        ∃ old new, s.x[i]? = some old ∧ storedAs r i old v new
          ∧ (let t := { s with x := s.x.set i new, result := .nothing }
             exec (.write 4#8 (BitVec.ofNat 32 (4 * i)) v) s = .next t
              ∧ (i = f.mpllBypass.idx → 1#4 ∈ r.supported →
                  exec .qAMpll t = .next { t with
                    result := .hz (if new.getLsbD f.mpllBypass.bit then r.xtal
                      else pll r.layout (wordAt t.x f.mpllWord) r.xtal) })
              ∧ (i = f.armSrc.idx → 3#4 ∈ r.supported →
                  exec .qAMcu t = .next { t with
                    result := .hz (divU (if new.getLsbD f.armSrc.bit then divU (mpllA r f t.x * 3#32) 4
                      else mpllA r f t.x) (divisorAt t.x f.armClkDiv)) })
              ∧ (i = f.armClkDiv.idx → 3#4 ∈ r.supported →
                  exec .qAMcu t = .next { t with
                    result := .hz (divU (if isSet t.x f.armSrc then divU (mpllA r f t.x * 3#32) 4
                      else mpllA r f t.x) (1 + bits new f.armClkDiv.lo f.armClkDiv.width)) })
              ∧ (i = f.ahbClkDiv.idx → 4#4 ∈ r.supported →
                  exec .qAAhb t = .next { t with
                    result := .hz (divU (mcuA r f t.x) (1 + bits new f.ahbClkDiv.lo f.ahbClkDiv.width)) })))
    ∧ (∀ (s : State) (r : Richer) (f : FieldsB) (i : Nat) (v : Word), s.cfg.ctl = .b r f → s.Inv → s.ready = true →
      i < s.cfg.words →
        ∃ old new, s.x[i]? = some old ∧ storedAs r i old v new
          ∧ (let t := { s with x := s.x.set i new, result := .nothing }
             exec (.write 4#8 (BitVec.ofNat 32 (4 * i)) v) s = .next t
              ∧ (i = f.refsel.idx → 3#4 ∈ r.supported →
                  exec .qBMcu t =
                    (let ref := if bits new f.refsel.lo f.refsel.width = f.refselLfCode then r.ckil * 1024#32 else r.xtal
                     .next { t with
                      result := .hz (if isSet t.x f.bypassMode || !isSet t.x f.pllEnable then ref
                        else pll r.layout (wordAt t.x f.mpllWord) ref) }))
              ∧ (i = f.bypassMode.idx → 3#4 ∈ r.supported →
                  exec .qBMcu t = .next { t with
                    result := .hz (if new.getLsbD f.bypassMode.bit || !isSet t.x f.pllEnable then refclkB r f t.x
                      else pll r.layout (wordAt t.x f.mpllWord) (refclkB r f t.x)) })
              ∧ (i = f.pllEnable.idx → 3#4 ∈ r.supported →
                  exec .qBMcu t = .next { t with
                    result := .hz (if isSet t.x f.bypassMode || !new.getLsbD f.pllEnable.bit then refclkB r f t.x
                      else pll r.layout (wordAt t.x f.mpllWord) (refclkB r f t.x)) })
              ∧ (i = f.hspDiv.idx → 4#4 ∈ r.supported →
                  exec .qBHsp t = .next { t with
                    result := .hz (divU (mcuB r f t.x) (1 + bits new f.hspDiv.lo f.hspDiv.width)) })
              ∧ (i = f.ipgDiv.idx → 5#4 ∈ r.supported →
                  exec .qBIpg t = .next { t with
                    result := .hz (divU (hspB r f t.x) (1 + bits new f.ipgDiv.lo f.ipgDiv.width)) })))
end

