-- ==== Sys2Proof/Laws/Memory.lean ====
section
/-! SUPPORT. Sys2Proof/Laws/Memory.lean: the laws of the register file: a read after a write, and that every operation
on it keeps its form, `N_v` words (Memory.wf). -/

namespace Sys2Proof.Machine

variable {c : Config} {x : List Word}

theorem wordAt_set_same {i : Nat} (v : Word) (h : i < x.length) : wordAt (x.set i v) i = v := by
  simp [wordAt, List.getD_eq_getElem?_getD, h]

/-- A control bit of the word just written is a bit of that word (R24). -/
theorem isSet_set_same {p : BitPos} (v : Word) (h : p.idx < x.length) : isSet (x.set p.idx v) p = v.getLsbD p.bit := by
  rw [isSet, wordAt_set_same v h]

/-- A field of the word just written is a field of that word (R24). -/
theorem fieldAt_set_same {p : FieldPos} (v : Word) (h : p.idx < x.length) :
    fieldAt (x.set p.idx v) p = bits v p.lo p.width := by rw [fieldAt, wordAt_set_same v h]

theorem wordAt_set_other {i j : Nat} (v : Word) (h : j ≠ i) : wordAt (x.set i v) j = wordAt x j := by
  simp [wordAt, List.getD_eq_getElem?_getD, List.getElem?_set_ne (Ne.symm h)]

theorem wordAt_of_lt {i : Nat} (h : i < x.length) : x[i]? = some (wordAt x i) := by
  simp [wordAt, List.getD_eq_getElem?_getD, h]

theorem memory_wf_set (h : Memory.wf c x) (i : Nat) (v : Word) : Memory.wf c (x.set i v) := by
  simpa [Memory.wf] using h

theorem memory_wf_tableImage (c : Config) : Memory.wf c (tableImage c) := by
  simp [Memory.wf, tableImage]

theorem memory_wf_applyOverride (o : Override) (h : Memory.wf c x) : Memory.wf c (applyOverride o x) := by
  simpa [Memory.wf, applyOverride] using h

theorem memory_wf_resetImage (c : Config) : Memory.wf c (resetImage c) := by
  unfold resetImage
  cases c.ctl
  · exact memory_wf_applyOverride _ (memory_wf_tableImage c)
  · exact memory_wf_tableImage c
  · exact memory_wf_tableImage c

/-- An aligned in-bounds offset names a word of the register file (R52, R53). -/
theorem wordIndex_lt {offset : Word} (h : inBounds c offset = true) : wordIndex offset < c.words := by
  have : offset.toNat < 4 * c.words := by simpa [inBounds] using h
  simp only [wordIndex, Nat.shiftRight_eq_div_pow]
  omega

theorem wordIndex_eq_div (offset : Word) : wordIndex offset = offset.toNat / 4 := by
  simp [wordIndex, Nat.shiftRight_eq_div_pow]

end Sys2Proof.Machine
end

