-- ==== Sys2Proof/Laws/State.lean ====
section
/-! SUPPORT. Sys2Proof/Laws/State.lean: one lemma per field per update of State, each true by rfl. -/

namespace Sys2Proof.Machine

variable (s : State) (r : Result) (e : Diag) (i : Nat) (v : Word) (image : List Word)

@[simp] theorem answer_cfg : (s.answer r).cfg = s.cfg := rfl
@[simp] theorem answer_x : (s.answer r).x = s.x := rfl
@[simp] theorem answer_ready : (s.answer r).ready = s.ready := rfl
@[simp] theorem answer_diags : (s.answer r).diags = s.diags := rfl
@[simp] theorem answer_result : (s.answer r).result = r := rfl
@[simp] theorem answer_pending : (s.answer r).pending = s.pending := rfl

@[simp] theorem log_cfg : (s.log e).cfg = s.cfg := rfl
@[simp] theorem log_x : (s.log e).x = s.x := rfl
@[simp] theorem log_ready : (s.log e).ready = s.ready := rfl
@[simp] theorem log_diags : (s.log e).diags = s.diags ++ [e] := rfl
@[simp] theorem log_result : (s.log e).result = s.result := rfl
@[simp] theorem log_pending : (s.log e).pending = s.pending := rfl

@[simp] theorem setWord_cfg : (s.setWord i v).cfg = s.cfg := rfl
@[simp] theorem setWord_x : (s.setWord i v).x = s.x.set i v := rfl
@[simp] theorem setWord_ready : (s.setWord i v).ready = s.ready := rfl
@[simp] theorem setWord_diags : (s.setWord i v).diags = s.diags := rfl
@[simp] theorem setWord_result : (s.setWord i v).result = s.result := rfl
@[simp] theorem setWord_pending : (s.setWord i v).pending = s.pending := rfl

@[simp] theorem load_cfg : (s.load image).cfg = s.cfg := rfl
@[simp] theorem load_x : (s.load image).x = image := rfl
@[simp] theorem load_ready : (s.load image).ready = true := rfl
@[simp] theorem load_diags : (s.load image).diags = s.diags := rfl
@[simp] theorem load_result : (s.load image).result = s.result := rfl
@[simp] theorem load_pending : (s.load image).pending = s.pending := rfl

@[simp] theorem dropRequest_cfg : s.dropRequest.cfg = s.cfg := rfl
@[simp] theorem dropRequest_x : s.dropRequest.x = s.x := rfl
@[simp] theorem dropRequest_ready : s.dropRequest.ready = s.ready := rfl
@[simp] theorem dropRequest_diags : s.dropRequest.diags = s.diags := rfl
@[simp] theorem dropRequest_result : s.dropRequest.result = s.result := rfl
@[simp] theorem dropRequest_pending : s.dropRequest.pending = s.pending.tail := rfl

end Sys2Proof.Machine
end

