-- ==== Sys2Proof/Laws/Ops.lean ====
section
/-! SUPPORT. Sys2Proof/Laws/Ops.lean: for each shared operation, what it can answer, once; callers cite these and do
not unfold the operation. -/

namespace Sys2Proof.Machine

variable {s t : State} {k : Out}

theorem whenReady_ready (h : s.ready = true) : whenReady s k = k := by simp [whenReady, h]

theorem whenReady_not_ready (h : s.ready = false) : whenReady s k = .refused .beforeReset := by
  simp [whenReady, h]

theorem whenReady_next (h : whenReady s k = .next t) : s.ready = true ∧ k = .next t := by
  unfold whenReady at h
  split at h
  · exact ⟨‹_›, h⟩
  · cases h

theorem whenRicher_some {r : Richer} {k : Richer → Out} (h : s.cfg.ctl.richer = some r) :
    whenRicher s k = k r := by simp [whenRicher, h]

theorem whenRicher_next {k : Richer → Out} (h : whenRicher s k = .next t) :
    ∃ r, s.cfg.ctl.richer = some r ∧ k r = .next t := by
  unfold whenRicher at h
  split at h
  · exact ⟨_, ‹_›, h⟩
  · cases h

theorem whenA_a {r : Richer} {f : FieldsA} {o : Override} {k : Richer → FieldsA → Override → Out}
    (h : s.cfg.ctl = .a r f o) : whenA s k = k r f o := by simp [whenA, h]

theorem whenA_next {k : Richer → FieldsA → Override → Out} (h : whenA s k = .next t) :
    ∃ r f o, s.cfg.ctl = .a r f o ∧ k r f o = .next t := by
  unfold whenA at h
  split at h
  · exact ⟨_, _, _, ‹_›, h⟩
  · cases h
  · cases h

theorem whenB_b {r : Richer} {f : FieldsB} {k : Richer → FieldsB → Out} (h : s.cfg.ctl = .b r f) :
    whenB s k = k r f := by simp [whenB, h]

theorem whenB_next {k : Richer → FieldsB → Out} (h : whenB s k = .next t) :
    ∃ r f, s.cfg.ctl = .b r f ∧ k r f = .next t := by
  unfold whenB at h
  split at h
  · cases h
  · exact ⟨_, _, ‹_›, h⟩
  · cases h

theorem whenC_c (h : s.cfg.ctl = .c) : whenC s k = k := by simp [whenC, h]

theorem whenC_next (h : whenC s k = .next t) : s.cfg.ctl = .c ∧ k = .next t := by
  unfold whenC at h
  split at h
  · cases h
  · cases h
  · exact ⟨‹_›, h⟩

/-- What a raised diagnostic does: the event at the end of the log, the stated result, nothing else. -/
theorem raiseDiag_eq (s : State) (e : Diag) (r : Result) :
    raiseDiag s e r = .next { s with diags := s.diags ++ [e], result := r } := rfl

theorem readWord_eq (s : State) (offset : Word) :
    readWord s offset = .next { s with result := .value (wordAt s.x (wordIndex offset)) } := rfl

theorem resetTo_eq (s : State) (image : List Word) :
    resetTo s image = .next { s with x := image, ready := true, result := .nothing } := rfl

/-- What a query of a clock of the chain answers. -/
theorem answerQuery_next {r : Richer} {clk : ClockId} {f : Word} (h : answerQuery s r clk f = .next t) :
    s.ready = true ∧
      ((supports r clk = true ∧ t = s.answer (.hz f)) ∨
        (supports r clk = false ∧ t = (s.log (.unsupportedClock clk)).answer (.hz 0#32))) := by
  obtain ⟨hr, h⟩ := whenReady_next h
  refine ⟨hr, ?_⟩
  cases hs : supports r clk
  · rw [if_neg (by simp [hs])] at h
    cases h
    exact .inr ⟨rfl, rfl⟩
  · rw [if_pos hs] at h
    cases h
    exact .inl ⟨rfl, rfl⟩

/-- A supported clock of the chain: its frequency, and nothing else changes. -/
theorem answerQuery_supported {r : Richer} {clk : ClockId} {f : Word} (h : s.ready = true) (hs : clk ∈ r.supported) :
    answerQuery s r clk f = .next { s with result := .hz f } := by
  simp [answerQuery, whenReady, h, supports, hs, State.answer]

/-- A clock left out of the supported set: 0 and one diagnostic. -/
theorem answerQuery_unsupported {r : Richer} {clk : ClockId} {f : Word} (h : s.ready = true)
    (hs : clk ∉ r.supported) :
    answerQuery s r clk f =
      .next { s with result := .hz 0#32, diags := s.diags ++ [.unsupportedClock clk] } := by
  simp [answerQuery, whenReady, h, supports, hs, State.answer, unsupportedQuery, raiseDiag, State.log]

theorem unsupportedQuery_eq (s : State) (clk : ClockId) :
    unsupportedQuery s clk =
      .next { s with result := .hz 0#32, diags := s.diags ++ [.unsupportedClock clk] } := rfl

end Sys2Proof.Machine
end

