-- ==== Sys2Proof/Laws/Config.lean ====
section
/-! SUPPORT. Sys2Proof/Laws/Config.lean: what an admitted configuration guarantees: the window, the words of the named
fields, the policy of a word, and what a write leaves in a word. -/

namespace Sys2Proof.Machine

variable {c : Config} {r : Richer} {i : Nat} {p : Policy}

/-- R7, R74: `4·N_v ≤ WINDOW_v ≤ 2^32` and `N_v ≥ 1` for a richer variant. -/
theorem richer_window (hr : c.ctl.richer = some r) (hw : c.wf = true) :
    4 * c.words ≤ c.window ∧ c.window ≤ 2 ^ 32 ∧ 1 ≤ c.words := by
  cases hc : c.ctl <;> simp [hc, Controller.richer] at hr <;> simp [Config.wf, hc] at hw <;> omega

/-- The baseline's window holds its words exactly (R26). -/
theorem baseline_window (hc : c.ctl = .c) (hw : c.wf = true) : c.window = 4 * c.words ∧ c.window ≤ 2 ^ 32 := by
  simp [Config.wf, hc] at hw
  omega

theorem fieldsA_in_words {f : FieldsA} {o : Override} (hc : c.ctl = .a r f o) (hw : c.wf = true) :
    f.mpllWord < c.words ∧ f.upllWord < c.words ∧ f.mpllBypass.idx < c.words ∧ f.armSrc.idx < c.words
      ∧ f.armClkDiv.idx < c.words ∧ f.ahbClkDiv.idx < c.words := by
  simp [Config.wf, hc, FieldsA.wf, BitPos.wf, FieldPos.wf] at hw
  tauto

theorem fieldsB_in_words {f : FieldsB} (hc : c.ctl = .b r f) (hw : c.wf = true) :
    f.mpllWord < c.words ∧ f.refsel.idx < c.words ∧ f.bypassMode.idx < c.words ∧ f.pllEnable.idx < c.words
      ∧ f.hspDiv.idx < c.words ∧ f.ipgDiv.idx < c.words := by
  simp [Config.wf, hc, FieldsB.wf, BitPos.wf, FieldPos.wf] at hw
  tauto

/-- One policy a word, and only for words of the file (R27). -/
theorem policies_wf (hr : c.ctl.richer = some r) (hw : c.wf = true) :
    (r.policies.map Prod.fst).Nodup ∧ ∀ q ∈ r.policies, q.1 < c.words := by
  cases hc : c.ctl <;> simp [hc, Controller.richer] at hr
  all_goals
    subst hr
    simp [Config.wf, hc, Richer.wf] at hw
    refine ⟨by tauto, ?_⟩
    rintro ⟨a, b⟩ hp
    obtain ⟨-, hw⟩ := hw
    simp_all
    tauto

theorem lookup_of_mem {l : List (Nat × Policy)} (hn : (l.map Prod.fst).Nodup) (h : (i, p) ∈ l) :
    l.lookup i = some p := by
  induction l with
  | nil => cases h
  | cons a l ih =>
    obtain ⟨j, q⟩ := a
    simp at hn
    simp at h
    rcases h with ⟨rfl, rfl⟩ | h
    · simp [List.lookup]
    · have hij : i ≠ j := fun e => hn.1 p (e ▸ h)
      simp [List.lookup, beq_false_of_ne hij, ih hn.2 h]

theorem lookup_none {l : List (Nat × Policy)} (h : ∀ p, (i, p) ∉ l) : l.lookup i = none := by
  induction l with
  | nil => rfl
  | cons a l ih =>
    obtain ⟨j, q⟩ := a
    have hij : i ≠ j := fun e => h q (by simp [e])
    simp [List.lookup, beq_false_of_ne hij, ih (fun p hp => h p (by simp [hp]))]

/-- The declared policy of a word (R27). -/
theorem policyAt_declared (hr : c.ctl.richer = some r) (hw : c.wf = true) (h : (i, p) ∈ r.policies) :
    policyAt r i = p := by
  simp [policyAt, lookup_of_mem (policies_wf hr hw).1 h]

/-- A word with no declared policy is plain storage (R27). -/
theorem policyAt_undeclared (h : ∀ p, (i, p) ∉ r.policies) : policyAt r i = .plain := by
  simp [policyAt, lookup_none h]

@[simp] theorem applyPolicy_plain (old v : Word) : applyPolicy .plain old v = v := by
  simp only [applyPolicy, Policy.plain]
  rw [show (~~~0xFFFFFFFF#32 : Word) = 0#32 from by decide, BitVec.and_zero, BitVec.zero_or, BitVec.or_zero]
  exact BitVec.and_allOnes

@[simp] theorem applyPolicy_ignored (old v : Word) : applyPolicy .ignored old v = old := rfl

/-- The word a meaning stores is the one the declared policies give (R122). -/
theorem storedAs_applyPolicy (hr : c.ctl.richer = some r) (hw : c.wf = true) (old v : Word) :
    storedAs r i old v (applyPolicy (policyAt r i) old v) :=
  ⟨fun _ _ h => by rw [policyAt_declared hr hw h]; rfl, fun h => by rw [policyAt_declared hr hw h]; rfl,
    fun h => by rw [policyAt_undeclared h, applyPolicy_plain]⟩

/-- A word-aligned WRITE of word `i` of a ready richer variant, whatever the policy: one word set, no result, nothing
else. -/
theorem exec_write_word {s : State} (hr : s.cfg.ctl.richer = some r) (hw : s.cfg.wf = true) (hd : s.ready = true)
    (hi : i < s.cfg.words) (v : Word) :
    exec (.write 4#8 (BitVec.ofNat 32 (4 * i)) v) s =
      .next { s with x := s.x.set i (applyPolicy (policyAt r i) (wordAt s.x i) v), result := .nothing } := by
  obtain ⟨h1, h2, -⟩ := richer_window hr hw
  have e : (BitVec.ofNat 32 (4 * i)).toNat = 4 * i := by simp; omega
  have hdel : deliverable s.cfg 4#8 (BitVec.ofNat 32 (4 * i)) = true := by simp only [deliverable, e]; simp; omega
  have hin : inBounds s.cfg (BitVec.ofNat 32 (4 * i)) = true := by simp only [inBounds, e]; simp; omega
  have hx : wordIndex (BitVec.ofNat 32 (4 * i)) = i := by simp only [wordIndex, e]; omega
  simp [exec, execWrite, whenRicher_some hr, whenReady_ready hd, hdel, hin, writeWord, hx, State.setWord, State.answer]

end Sys2Proof.Machine
end

