-- ==== Sys2Proof/Laws/Decode.lean ====
section
/-! SUPPORT. Sys2Proof/Laws/Decode.lean: the small facts of the command byte and of the decoder's rows. -/

namespace Sys2Proof

open Sys2Proof.Machine

theorem opOf_toNat (cmd : Byte) : (opOf cmd).toNat = cmd.toNat / 16 := by
  have := cmd.isLt
  simp [opOf, Nat.shiftRight_eq_div_pow]
  omega

theorem argOf_toNat (cmd : Byte) : (argOf cmd).toNat = cmd.toNat % 16 := by simp [argOf]

theorem opOf_cmdByte : ∀ op arg, opOf (cmdByte op arg) = op := by decide

theorem argOf_cmdByte : ∀ op arg, argOf (cmdByte op arg) = arg := by decide

/-- The two ways the spec's bounds are written agree (R53, R87). -/
theorem outOfRangeForm_eq (c : Config) (size : Byte) (offset : Word) :
    outOfRangeForm c size offset = (deliverable c size offset && !inBounds c offset) := by
  unfold outOfRangeForm deliverable inBounds
  by_cases h1 : size == 4#8 <;> by_cases h2 : offset.toNat % 4 == 0 <;>
    by_cases h3 : offset.toNat < c.window <;> by_cases h4 : offset.toNat < 4 * c.words <;> (simp [*]; try omega)

theorem deliverable_size {c : Config} {size : Byte} {offset : Word} (h : deliverable c size offset = true) :
    size = 4#8 := by
  simp [deliverable] at h
  exact h.1.1

theorem queryRowA_unrecognised {clk : ClockId} (h : 7 ≤ clk.toNat) : queryRowA clk = .qAUnrecognised clk := by
  unfold queryRowA
  split <;> first | omega | rfl

theorem queryRowB_unrecognised {clk : ClockId} (h : 7 ≤ clk.toNat) : queryRowB clk = .qBUnrecognised clk := by
  unfold queryRowB
  split <;> first | omega | rfl

/-- A READ record of a richer variant. -/
theorem decode_read_record {c : Config} {r : Richer} (hr : c.ctl.richer = some r) (size : Byte) (offset data : Word)
    (version : Nat) (image : List Word) :
    decode c (.record ⟨0x00#8, size, offset, data⟩ version image) =
      if deliverable c size offset && !inBounds c offset then .readOor offset else .read size offset := by
  have h : decode c (.record ⟨0x00#8, size, offset, data⟩ version image) = readRow c ⟨0x00#8, size, offset, data⟩ := by
    simp [decode, decodeRecord, opOf, argOf]
  rw [h]
  cases hc : c.ctl <;> simp [hc, Controller.richer] at hr <;> simp [readRow, hc, Controller.variant]

/-- A WRITE record of a richer variant. -/
theorem decode_write_record {c : Config} {r : Richer} (hr : c.ctl.richer = some r) (size : Byte) (offset data : Word)
    (version : Nat) (image : List Word) :
    decode c (.record ⟨0x10#8, size, offset, data⟩ version image) =
      if deliverable c size offset && !inBounds c offset then .writeOor offset data else .write size offset data := by
  have h : decode c (.record ⟨0x10#8, size, offset, data⟩ version image) = writeRow c ⟨0x10#8, size, offset, data⟩ := by
    simp [decode, decodeRecord, opOf, argOf]
  rw [h]
  cases hc : c.ctl <;> simp [hc, Controller.richer] at hr <;> simp [writeRow, hc, Controller.variant]

/-- A QUERY record selects the variant's row of its ClockId. -/
theorem decode_query_record (c : Config) {r : Record} (h : opOf r.cmd = 3#4) (version : Nat) (image : List Word) :
    decode c (.record r version image) = queryRow c.ctl.variant (argOf r.cmd) := by
  simp [decode, decodeRecord, h]

end Sys2Proof
end

