-- ==== Sys2Proof/Laws/Pll.lean ====
section
/-! SUPPORT. Sys2Proof/Laws/Pll.lean: the small facts of the PLL formula's parts. -/

namespace Sys2Proof.Machine

theorem mfiOf_ge_five (f : PllFields) : 5 ≤ mfiOf f := by
  unfold mfiOf
  split <;> omega

theorem mfdOf_pos (f : PllFields) : 0 < mfdOf f := by simp [mfdOf]

theorem pdOf_pos (f : PllFields) : 0 < pdOf f := by simp [pdOf]

/-- R110: the divisor is at least 1. -/
theorem pllDen_pos (f : PllFields) : 0 < pllDen f := Nat.mul_pos (mfdOf_pos f) (pdOf_pos f)

theorem divU_toNat (a : Word) (d : Nat) : (divU a d).toNat = a.toNat / d := by
  have h : a.toNat / d < 2 ^ 32 := Nat.lt_of_le_of_lt (Nat.div_le_self _ _) a.isLt
  simpa [divU] using Nat.mod_eq_of_lt h

theorem bits_lt (w : Word) (lo width : Nat) : bits w lo width < 2 ^ width :=
  Nat.mod_lt _ (Nat.two_pow_pos width)

theorem divisorAt_pos (x : List Word) (p : FieldPos) : 0 < divisorAt x p := by simp [divisorAt]

end Sys2Proof.Machine
end

