-- ==== Sys2Proof/Laws/Exec.lean ====
section
/-! SUPPORT. Sys2Proof/Laws/Exec.lean: what a completed instruction can have done, said once (`exec_next`), so that an
invariant is proved by five cases and not by unfolding every meaning. -/

namespace Sys2Proof.Machine

/-- The effect of a completed transaction on the state. -/
inductive Effect (i : Instr) (s t : State) : Prop where
  /-- a result, and nothing else -/
  | answered (r : Result) (h : t = s.answer r)
  /-- one allowed event, and a result -/
  | logged (e : Diag) (r : Result) (allowed : s.cfg.wf = true → diagAllowed s.cfg e = true)
      (h : t = (s.log e).answer r)
  /-- a guest write of a word of a richer variant, under the word's policy -/
  | wrote (size : Byte) (offset v : Word) (r : Richer) (hi : i = .write size offset v)
      (hr : s.cfg.ctl.richer = some r) (hb : wordIndex offset < s.cfg.words)
      (h : t = (s.setWord (wordIndex offset)
        (applyPolicy (policyAt r (wordIndex offset)) (wordAt s.x (wordIndex offset)) v)).answer .nothing)
  /-- a write of a word of the baseline -/
  | wroteC (size : Byte) (offset v : Word) (hi : i = .writeC size offset v) (hc : s.cfg.ctl = .c)
      (hw : offset.toNat < s.cfg.window) (h : t = (s.setWord (wordIndex offset) v).answer .nothing)
  /-- RESET, or an accepted RESTORE: every word is given a value -/
  | loaded (image : List Word) (r : Result) (hi : i.isReset = true ∨ i.isRestore = true)
      (hl : Memory.wf s.cfg image) (h : t = (s.load image).answer r)

variable {s t : State} {i : Instr}

theorem outOfRange_form {size : Byte} {offset : Word} (hd : deliverable s.cfg size offset = true)
    (hb : inBounds s.cfg offset = false) : outOfRangeForm s.cfg 4#8 offset = true := by
  simp [deliverable] at hd
  simp [inBounds] at hb
  simp [outOfRangeForm, hd, hb]

theorem diagAllowed_access {r : Richer} {size : Byte} {offset : Word} {dir : Dir}
    (hr : s.cfg.ctl.richer = some r) (hd : deliverable s.cfg size offset = true)
    (hb : inBounds s.cfg offset = false) : diagAllowed s.cfg (.badRegisterAccess r.deviceName offset dir) = true := by
  simp [diagAllowed, hr, outOfRange_form hd hb]

theorem diagAllowed_clock {r : Richer} {clk : ClockId} (hr : s.cfg.ctl.richer = some r) (h0 : clk ≠ 0#4)
    (hs : clk ∉ r.supported) : diagAllowed s.cfg (.unsupportedClock clk) = true := by
  simp [diagAllowed, hr, h0, hs]

/-- An admitted configuration supports only clocks that its chain names (D7). -/
theorem supported_node {n : Nat} {nodes : List ClockId} {r : Richer} {clk : ClockId} (h : r.wf n nodes = true)
    (hc : clk ∈ r.supported) : clk ∈ nodes := by
  simp only [Richer.wf, Bool.and_eq_true, List.all_eq_true] at h
  simpa using h.2 clk hc

theorem supportedA {r : Richer} {f : FieldsA} {o : Override} {clk : ClockId} (hs : s.cfg.ctl = .a r f o)
    (hw : s.cfg.wf = true) (hc : clk ∈ r.supported) : clk ∈ clocksA := by
  simp only [Config.wf, hs, Bool.and_eq_true] at hw
  exact supported_node hw.2.1.1.2 hc

theorem supportedB {r : Richer} {f : FieldsB} {clk : ClockId} (hs : s.cfg.ctl = .b r f)
    (hw : s.cfg.wf = true) (hc : clk ∈ r.supported) : clk ∈ clocksB := by
  simp only [Config.wf, hs, Bool.and_eq_true] at hw
  exact supported_node hw.2.1.2 hc

theorem clocksA_lt : ∀ {clk : ClockId}, clk ∈ clocksA → clk.toNat < 7 := by decide

theorem clocksB_lt : ∀ {clk : ClockId}, clk ∈ clocksB → clk.toNat < 7 ∧ clk ≠ 1#4 ∧ clk ≠ 2#4 := by decide

theorem richer_a {c : Config} {r : Richer} {f : FieldsA} {o : Override} (h : c.ctl = .a r f o) :
    c.ctl.richer = some r := by simp [h, Controller.richer]

theorem richer_b {c : Config} {r : Richer} {f : FieldsB} (h : c.ctl = .b r f) : c.ctl.richer = some r := by
  simp [h, Controller.richer]

/-- The effect of a query of a clock of the chain. -/
theorem answerQuery_effect {r : Richer} {clk : ClockId} {f : Word} (hr : s.cfg.ctl.richer = some r)
    (h0 : clk ≠ 0#4) (h : answerQuery s r clk f = .next t) : Effect i s t := by
  obtain ⟨-, ⟨-, ht⟩ | ⟨hs, ht⟩⟩ := answerQuery_next h
  · exact .answered _ ht
  · exact .logged _ _ (fun _ => diagAllowed_clock hr h0 (by simpa [supports] using hs)) ht

/-- The effect of a query that is never supported. -/
theorem unsupported_effect {r : Richer} {clk : ClockId} (hr : s.cfg.ctl.richer = some r) (h0 : clk ≠ 0#4)
    (hs : s.cfg.wf = true → clk ∉ r.supported) (h : whenReady s (unsupportedQuery s clk) = .next t) :
    Effect i s t := by
  obtain ⟨-, h⟩ := whenReady_next h
  cases h
  exact .logged _ _ (fun hw => diagAllowed_clock hr h0 (hs hw)) rfl

theorem queryA_effect {k : Richer → FieldsA → Word} {clk : ClockId} (h0 : clk ≠ 0#4)
    (h : (whenA s fun r f _ => answerQuery s r clk (k r f)) = .next t) : Effect i s t := by
  obtain ⟨r, f, o, hc, h⟩ := whenA_next h
  exact answerQuery_effect (richer_a hc) h0 h

theorem queryB_effect {k : Richer → FieldsB → Word} {clk : ClockId} (h0 : clk ≠ 0#4)
    (h : (whenB s fun r f => answerQuery s r clk (k r f)) = .next t) : Effect i s t := by
  obtain ⟨r, f, hc, h⟩ := whenB_next h
  exact answerQuery_effect (richer_b hc) h0 h

theorem unsupportedB_effect {clk : ClockId} (h0 : clk ≠ 0#4) (hn : clk ∉ clocksB)
    (h : (whenB s fun _ _ => whenReady s (unsupportedQuery s clk)) = .next t) : Effect i s t := by
  obtain ⟨r, f, hc, h⟩ := whenB_next h
  exact unsupported_effect (richer_b hc) h0 (fun hw hm => hn (supportedB hc hw hm)) h

theorem noclk_effect (h : whenReady s (.next (s.answer (.hz 0#32))) = .next t) : Effect i s t := by
  obtain ⟨-, h⟩ := whenReady_next h
  cases h
  exact .answered _ rfl

theorem unrecognised_ne_zero {clk : ClockId} (h : 7 ≤ clk.toNat) : clk ≠ 0#4 := by
  rintro rfl
  simp at h

theorem read_effect {size : Byte} {offset : Word} (h : execRead size offset s = .next t) : Effect i s t := by
  obtain ⟨r, hr, h⟩ := whenRicher_next h
  obtain ⟨-, h⟩ := whenReady_next h
  cases hd : deliverable s.cfg size offset <;> cases hb : inBounds s.cfg offset <;> simp [hd, hb] at h
  · cases h
    exact .logged _ _ (fun _ => diagAllowed_access hr hd hb) rfl
  · cases h
    exact .answered _ rfl

theorem readOor_effect {offset : Word} (h : execReadOor offset s = .next t) : Effect i s t := by
  obtain ⟨r, hr, h⟩ := whenRicher_next h
  cases hd : deliverable s.cfg 4#8 offset <;> cases hb : inBounds s.cfg offset <;> simp [hd, hb] at h
  obtain ⟨-, h⟩ := whenReady_next h
  cases h
  exact .logged _ _ (fun _ => diagAllowed_access hr hd hb) rfl

theorem readC_effect {size : Byte} {offset : Word} (h : execReadC size offset s = .next t) : Effect i s t := by
  obtain ⟨-, h⟩ := whenC_next h
  obtain ⟨-, h⟩ := whenReady_next h
  cases hd : deliverableC s.cfg offset <;> simp [hd] at h
  cases h
  exact .answered _ rfl

theorem write_effect {size : Byte} {offset v : Word} (h : execWrite size offset v s = .next t) :
    Effect (.write size offset v) s t := by
  obtain ⟨r, hr, h⟩ := whenRicher_next h
  obtain ⟨-, h⟩ := whenReady_next h
  cases hd : deliverable s.cfg size offset <;> cases hb : inBounds s.cfg offset <;> simp [hd, hb] at h
  · cases h
    exact .logged _ _ (fun _ => diagAllowed_access hr hd hb) rfl
  · cases h
    exact .wrote size offset v r rfl hr (wordIndex_lt hb) rfl

theorem writeOor_effect {offset v : Word} (h : execWriteOor offset v s = .next t) : Effect i s t := by
  obtain ⟨r, hr, h⟩ := whenRicher_next h
  cases hd : deliverable s.cfg 4#8 offset <;> cases hb : inBounds s.cfg offset <;> simp [hd, hb] at h
  obtain ⟨-, h⟩ := whenReady_next h
  cases h
  exact .logged _ _ (fun _ => diagAllowed_access hr hd hb) rfl

theorem writeC_effect {size : Byte} {offset v : Word} (h : execWriteC size offset v s = .next t) :
    Effect (.writeC size offset v) s t := by
  obtain ⟨hc, h⟩ := whenC_next h
  obtain ⟨-, h⟩ := whenReady_next h
  cases hd : deliverableC s.cfg offset <;> simp [hd] at h
  cases h
  exact .wroteC size offset v rfl hc (by simpa [deliverableC] using hd) rfl

theorem save_effect (h : execSave s = .next t) : Effect i s t := by
  obtain ⟨-, h⟩ := whenReady_next h
  cases h
  exact .answered _ rfl

theorem restore_effect {version : Nat} {image : List Word} (h : execRestore version image s = .next t) :
    Effect (.restore version image) s t := by
  unfold execRestore at h
  split at h
  · cases h
    exact .loaded image _ (.inr rfl) ‹_ ∧ _›.2 rfl
  · cases h
    exact .answered _ rfl

theorem pllw_effect {w base : Word} (h : execPllw w base s = .next t) : Effect i s t := by
  obtain ⟨r, -, h⟩ := whenRicher_next h
  cases h
  exact .answered _ rfl

/-- Every completed instruction has one of the five effects. -/
theorem exec_next (h : exec i s = .next t) : Effect i s t := by
  cases i with
  | read size offset => exact read_effect h
  | readOor offset => exact readOor_effect h
  | readC size offset => exact readC_effect (size := size) h
  | write size offset data => exact write_effect h
  | writeOor offset data => exact writeOor_effect (v := data) h
  | writeC size offset data => exact writeC_effect h
  | resetA =>
    obtain ⟨r, f, o, -, h⟩ := whenA_next h
    cases h
    exact .loaded _ _ (.inl rfl) (memory_wf_applyOverride o (memory_wf_tableImage s.cfg)) rfl
  | resetB =>
    obtain ⟨r, f, -, h⟩ := whenB_next h
    cases h
    exact .loaded _ _ (.inl rfl) (memory_wf_tableImage s.cfg) rfl
  | resetC =>
    obtain ⟨-, h⟩ := whenC_next h
    cases h
    exact .loaded _ _ (.inl rfl) (memory_wf_tableImage s.cfg) rfl
  | qANoclk =>
    obtain ⟨r, f, o, -, h⟩ := whenA_next h
    exact noclk_effect h
  | qAMpll => exact queryA_effect (by decide) h
  | qAUpll => exact queryA_effect (by decide) h
  | qAMcu => exact queryA_effect (by decide) h
  | qAAhb => exact queryA_effect (by decide) h
  | qAIpg => exact queryA_effect (by decide) h
  | qA32k => exact queryA_effect (k := fun r _ => r.ckil) (by decide) h
  | qAUnrecognised clk =>
    obtain ⟨r, f, o, hc, h⟩ := whenA_next h
    split at h
    · exact unsupported_effect (richer_a hc) (unrecognised_ne_zero ‹_›)
        (fun hw hm => by have := clocksA_lt (supportedA hc hw hm); omega) h
    · cases h
  | qBNoclk =>
    obtain ⟨r, f, -, h⟩ := whenB_next h
    exact noclk_effect h
  | qBMpllUnsupported => exact unsupportedB_effect (by decide) (by decide) h
  | qBUpllUnsupported => exact unsupportedB_effect (by decide) (by decide) h
  | qBMcu => exact queryB_effect (by decide) h
  | qBHsp => exact queryB_effect (by decide) h
  | qBIpg => exact queryB_effect (by decide) h
  | qB32k => exact queryB_effect (k := fun r _ => r.ckil) (by decide) h
  | qBUnrecognised clk =>
    obtain ⟨r, f, hc, h⟩ := whenB_next h
    split at h
    · exact unsupported_effect (richer_b hc) (unrecognised_ne_zero ‹_›)
        (fun hw hm => by have := (clocksB_lt (supportedB hc hw hm)).1; omega) h
    · cases h
  | qCRefused clk =>
    obtain ⟨-, h⟩ := whenC_next h
    cases h
  | save => exact save_effect h
  | restore version image => exact restore_effect h
  | reservedOp cmd => cases h
  | reservedArg cmd => cases h
  | pllw word base => exact pllw_effect h

end Sys2Proof.Machine
end

