-- ==== Sys2Proof/Laws/PerInstr.lean ====
section
/-! SUPPORT. Sys2Proof/Laws/PerInstr.lean: the per-instruction family RowPattern: the encoder writes, for every
well-formed instruction, a command byte that one of the instruction's own rows of spec/opcode_table.json matches. The
match and mask pairs below are copied from the table, not from the encoder. -/

namespace Sys2Proof.Laws

/-- The `match` and `mask` pairs of the instruction's rows in spec/opcode_table.json. PLLW is no command. -/
def tableRows : Instr → List (Byte × Byte)
  | .read _ _ => [(0x00, 0xFF)]
  | .readOor _ => [(0x00, 0xFF)]
  | .readC _ _ => [(0x00, 0xFF)]
  | .write _ _ _ => [(0x10, 0xFF)]
  | .writeOor _ _ => [(0x10, 0xFF)]
  | .writeC _ _ _ => [(0x10, 0xFF)]
  | .resetA => [(0x20, 0xFF)]
  | .resetB => [(0x20, 0xFF)]
  | .resetC => [(0x20, 0xFF)]
  | .qANoclk => [(0x30, 0xFF)]
  | .qAMpll => [(0x31, 0xFF)]
  | .qAUpll => [(0x32, 0xFF)]
  | .qAMcu => [(0x33, 0xFF)]
  | .qAAhb => [(0x34, 0xFF)]
  | .qAIpg => [(0x35, 0xFF)]
  | .qA32k => [(0x36, 0xFF)]
  | .qAUnrecognised _ => [(0x37, 0xFF), (0x38, 0xF8)]
  | .qBNoclk => [(0x30, 0xFF)]
  | .qBMpllUnsupported => [(0x31, 0xFF)]
  | .qBUpllUnsupported => [(0x32, 0xFF)]
  | .qBMcu => [(0x33, 0xFF)]
  | .qBHsp => [(0x34, 0xFF)]
  | .qBIpg => [(0x35, 0xFF)]
  | .qB32k => [(0x36, 0xFF)]
  | .qBUnrecognised _ => [(0x37, 0xFF), (0x38, 0xF8)]
  | .qCRefused _ => [(0x30, 0xF0)]
  | .save => [(0x40, 0xFF)]
  | .restore _ _ => [(0x50, 0xFF)]
  | .reservedOp _ => [(0x60, 0xE0), (0x80, 0x80)]
  | .reservedArg _ => [(0x00, 0xF0), (0x10, 0xF0), (0x20, 0xF0), (0x40, 0xF0), (0x50, 0xF0)]
  | .pllw _ _ => []

/-- The request is a record whose command byte some row matches, or, with no row of a command, a PLLW request. -/
def rowMatches (rows : List (Byte × Byte)) : Request → Bool
  | .record r _ _ => rows.any fun p => (r.cmd &&& p.2) == p.1
  | .pllw _ _ => rows.isEmpty

namespace RowPattern

def Statement (i : Instr) : Prop := ∀ c : Config, i.wf c = true → rowMatches (tableRows i) (encode i) = true

/-! The byte facts behind the rows whose command byte is an operand, for all 256 bytes. -/

set_option maxRecDepth 8000 in
theorem reservedOp_bytes (n : Fin 256) (h : 0x60 ≤ n.val) :
    (BitVec.ofFin n &&& 0xE0#8) = 0x60#8 ∨ (BitVec.ofFin n &&& 0x80#8) = 0x80#8 := by
  revert n; decide

set_option maxRecDepth 8000 in
theorem reservedArg_bytes (n : Fin 256) (h : n.val < 0x60) (h3 : n.val / 16 ≠ 3) :
    (BitVec.ofFin n &&& 0xF0#8) = 0x00#8 ∨ (BitVec.ofFin n &&& 0xF0#8) = 0x10#8
      ∨ (BitVec.ofFin n &&& 0xF0#8) = 0x20#8 ∨ (BitVec.ofFin n &&& 0xF0#8) = 0x40#8
      ∨ (BitVec.ofFin n &&& 0xF0#8) = 0x50#8 := by
  revert n; decide

theorem query_bytes (n : Fin 16) : (cmdByte 0x3#4 (BitVec.ofFin n) &&& 0xF0#8) = 0x30#8 := by
  revert n; decide

theorem unrecognised_bytes (n : Fin 16) (h : 7 ≤ n.val) :
    (cmdByte 0x3#4 (BitVec.ofFin n) &&& 0xFF#8) = 0x37#8 ∨ (cmdByte 0x3#4 (BitVec.ofFin n) &&& 0xF8#8) = 0x38#8 := by
  revert n; decide

theorem read (size : Byte) (offset : Word) : Statement (.read size offset) := fun _ _ => by
  simp [rowMatches, tableRows, encode, readRecord, cmdByte]
theorem readOor (offset : Word) : Statement (.readOor offset) := fun _ _ => by
  simp [rowMatches, tableRows, encode, readRecord, cmdByte]
theorem readC (size : Byte) (offset : Word) : Statement (.readC size offset) := fun _ _ => by
  simp [rowMatches, tableRows, encode, readRecord, cmdByte]
theorem write (size : Byte) (offset data : Word) : Statement (.write size offset data) := fun _ _ => by
  simp [rowMatches, tableRows, encode, writeRecord, cmdByte]
theorem writeOor (offset data : Word) : Statement (.writeOor offset data) := fun _ _ => by
  simp [rowMatches, tableRows, encode, writeRecord, cmdByte]
theorem writeC (size : Byte) (offset data : Word) : Statement (.writeC size offset data) := fun _ _ => by
  simp [rowMatches, tableRows, encode, writeRecord, cmdByte]
theorem resetA : Statement .resetA := fun _ _ => rfl
theorem resetB : Statement .resetB := fun _ _ => rfl
theorem resetC : Statement .resetC := fun _ _ => rfl
theorem qANoclk : Statement .qANoclk := fun _ _ => rfl
theorem qAMpll : Statement .qAMpll := fun _ _ => rfl
theorem qAUpll : Statement .qAUpll := fun _ _ => rfl
theorem qAMcu : Statement .qAMcu := fun _ _ => rfl
theorem qAAhb : Statement .qAAhb := fun _ _ => rfl
theorem qAIpg : Statement .qAIpg := fun _ _ => rfl
theorem qA32k : Statement .qA32k := fun _ _ => rfl
theorem qBNoclk : Statement .qBNoclk := fun _ _ => rfl
theorem qBMpllUnsupported : Statement .qBMpllUnsupported := fun _ _ => rfl
theorem qBUpllUnsupported : Statement .qBUpllUnsupported := fun _ _ => rfl
theorem qBMcu : Statement .qBMcu := fun _ _ => rfl
theorem qBHsp : Statement .qBHsp := fun _ _ => rfl
theorem qBIpg : Statement .qBIpg := fun _ _ => rfl
theorem qB32k : Statement .qB32k := fun _ _ => rfl
theorem save : Statement .save := fun _ _ => rfl
theorem restore (version : Nat) (image : List Word) : Statement (.restore version image) := fun _ _ => rfl
theorem pllw (word base : Word) : Statement (.pllw word base) := fun _ _ => rfl

theorem qAUnrecognised (clk : ClockId) : Statement (.qAUnrecognised clk) := by
  intro c h
  have h7 : 7 ≤ clk.toNat := by simp [Instr.wf] at h; exact h.2
  simpa [rowMatches, tableRows, encode, queryRecord, bareRecord] using unrecognised_bytes clk.toFin h7

theorem qBUnrecognised (clk : ClockId) : Statement (.qBUnrecognised clk) := by
  intro c h
  have h7 : 7 ≤ clk.toNat := by simp [Instr.wf] at h; exact h.2
  simpa [rowMatches, tableRows, encode, queryRecord, bareRecord] using unrecognised_bytes clk.toFin h7

theorem qCRefused (clk : ClockId) : Statement (.qCRefused clk) := by
  intro c _
  simpa [rowMatches, tableRows, encode, queryRecord, bareRecord] using query_bytes clk.toFin

theorem reservedOp (cmd : Byte) : Statement (.reservedOp cmd) := by
  intro c h
  have h6 : 0x60 ≤ cmd.toNat := by simpa [Instr.wf] using h
  simpa [rowMatches, tableRows, encode, bareRecord] using reservedOp_bytes cmd.toFin h6

theorem reservedArg (cmd : Byte) : Statement (.reservedArg cmd) := by
  intro c h
  have h' : cmd.toNat < 0x60 ∧ cmd.toNat / 16 ≠ 3 := by
    simp [Instr.wf] at h
    exact h.1
  simpa [rowMatches, tableRows, encode, bareRecord] using reservedArg_bytes cmd.toFin h'.1 h'.2

end RowPattern

end Sys2Proof.Laws
end

