-- ==== Sys2Proof/Tests/Slice0.lean ====
section
/-! SUPPORT. Sys2Proof/Tests/Slice0.lean: the model's own tests. Expected values come from spec/95_test_vectors.md
(named V-… in the comments), from the encoding tables of spec/30_encoding.md and spec/opcode_table.json, or from the
examples in the rules; the reference configurations are spec/92_eei_decisions.md D26. Each test of a meaning is one
step. The theorems named witness_… show, for each obligation with hypotheses, a state and operands that meet them. -/

namespace Sys2Proof.Tests

open Sys2Proof Sys2Proof.Machine

/-! ### Helpers -/

def sA : State := State.reset
def sB : State := State.resetOf refB
def sC : State := State.resetOf refC
def sA0 : State := State.constructed refA

/-- `s` with word `i` holding `v`. -/
def put (s : State) (i : Nat) (v : Word) : State := { s with x := s.x.set i v }

def resultOf : Out → Option Result
  | .next t => some t.result
  | _ => none

def wordOf (i : Nat) : Out → Option Word
  | .next t => t.x[i]?
  | _ => none

def wordsOf : Out → List Word
  | .next t => t.x
  | _ => []

def diagsOf : Out → List Diag
  | .next t => t.diags
  | _ => []

def readyOf : Out → Option Bool
  | .next t => some t.ready
  | _ => none

def refusalIn : Out → Option Refusal
  | .refused r => some r
  | _ => none

/-- A record with no operands beside it. -/
def rec (cmd size : Byte) (offset data : Word) : Request := .record ⟨cmd, size, offset, data⟩ 0 []

/-! ### WellFormed: an ill-formed term for each check -/

/-- REF_A with its shared parameters changed. -/
def richerA (g : Richer → Richer) : Config :=
  match refA.ctl with
  | .a r f o => { refA with ctl := .a (g r) f o }
  | _ => refA

/-- REF_B with its shared parameters changed. -/
def richerB (g : Richer → Richer) : Config :=
  match refB.ctl with
  | .b r f => { refB with ctl := .b (g r) f }
  | _ => refB

def fieldsA (g : FieldsA → FieldsA) : Config :=
  match refA.ctl with
  | .a r f o => { refA with ctl := .a r (g f) o }
  | _ => refA

def overrideA (g : Override → Override) : Config :=
  match refA.ctl with
  | .a r f o => { refA with ctl := .a r f (g o) }
  | _ => refA

def fieldsB (g : FieldsB → FieldsB) : Config :=
  match refB.ctl with
  | .b r f => { refB with ctl := .b r (g f) }
  | _ => refB

theorem wf_refA : refA.wf = true := by decide
theorem wf_refB : refB.wf = true := by decide
theorem wf_refC : refC.wf = true := by decide

theorem wf_refuses_no_words : { refC with words := 0, window := 0, resetTable := [] }.wf = false := by decide
theorem wf_refuses_window_over_4G : { refA with window := 2 ^ 32 + 4 }.wf = false := by decide
theorem wf_refuses_window_below_words : { refA with window := 108 }.wf = false := by decide
theorem wf_refuses_short_table_A : { refA with resetTable := refResetA.tail }.wf = false := by decide
theorem wf_refuses_window_below_words_B : { refB with window := 100 }.wf = false := by decide
theorem wf_refuses_short_table_B : { refB with resetTable := refResetB.tail }.wf = false := by decide
theorem wf_refuses_window_C : { refC with window := 0x24 }.wf = false := by decide
theorem wf_refuses_long_table_C : { refC with resetTable := List.replicate 9 0 }.wf = false := by decide
theorem wf_refuses_policy_of_no_word : (richerA fun r => { r with policies := [(28, .ignored)] }).wf = false := by decide
theorem wf_refuses_two_policies :
    (richerA fun r => { r with policies := [(3, .ignored), (3, Policy.plain)] }).wf = false := by decide
theorem wf_refuses_overlapping_pll_fields :
    (richerA fun r => { r with layout := { defaultLayout with mfi := ⟨9, 4⟩ } }).wf = false := by decide
theorem wf_refuses_pll_field_past_bit_31 :
    (richerA fun r => { r with layout := { defaultLayout with pd := ⟨29, 4⟩ } }).wf = false := by decide
theorem wf_refuses_empty_pll_field :
    (richerA fun r => { r with layout := { defaultLayout with mfd := ⟨16, 0⟩ } }).wf = false := by decide
theorem wf_refuses_unknown_clock : (richerA fun r => { r with supported := [7] }).wf = false := by decide
theorem wf_refuses_mpll_clock_on_B :
    (richerB fun r => { r with supported := [1] }).wf = false := by decide
theorem wf_refuses_mpll_word : (fieldsA fun f => { f with mpllWord := 28 }).wf = false := by decide
theorem wf_refuses_upll_word : (fieldsA fun f => { f with upllWord := 28 }).wf = false := by decide
theorem wf_refuses_bit_32 : (fieldsA fun f => { f with armSrc := ⟨2, 32⟩ }).wf = false := by decide
theorem wf_refuses_field_past_bit_31 : (fieldsA fun f => { f with armClkDiv := ⟨2, 31, 2⟩ }).wf = false := by decide
theorem wf_refuses_field_of_no_word : (fieldsA fun f => { f with ahbClkDiv := ⟨28, 0, 2⟩ }).wf = false := by decide
theorem wf_refuses_mpll_word_B : (fieldsB fun f => { f with mpllWord := 26 }).wf = false := by decide
theorem wf_refuses_lf_code : (fieldsB fun f => { f with refselLfCode := 4 }).wf = false := by decide
theorem wf_refuses_bit_of_no_word_B : (fieldsB fun f => { f with pllEnable := ⟨26, 3⟩ }).wf = false := by decide
theorem wf_refuses_empty_field_B : (fieldsB fun f => { f with hspDiv := ⟨1, 11, 0⟩ }).wf = false := by decide
theorem wf_refuses_override_of_no_word : (overrideA fun o => { o with idx := 28 }).wf = false := by decide
theorem wf_refuses_three_override_bits : (overrideA fun o => { o with mask := 0x700 }).wf = false := by decide
theorem wf_refuses_override_value : (overrideA fun o => { o with val := 0x400 }).wf = false := by decide

theorem wf_refuses_in_bounds_readOor : (Instr.readOor 0x6C).wf refA = false := by decide
theorem wf_refuses_out_of_range_read : (Instr.read 4 0x70).wf refA = false := by decide
theorem wf_refuses_in_bounds_writeOor : (Instr.writeOor 0x64 1).wf refB = false := by decide
theorem wf_refuses_out_of_range_write : (Instr.write 4 0x68 1).wf refB = false := by decide
theorem wf_refuses_other_variants :
    (Instr.read 4 0).wf refC = false ∧ (Instr.readC 4 0).wf refA = false ∧ (Instr.write 4 0 0).wf refC = false
      ∧ (Instr.writeC 4 0 0).wf refB = false ∧ (Instr.resetA).wf refB = false ∧ (Instr.resetB).wf refC = false
      ∧ (Instr.resetC).wf refA = false ∧ (Instr.qAMpll).wf refB = false ∧ (Instr.qBMcu).wf refA = false
      ∧ (Instr.qCRefused 0).wf refA = false ∧ (Instr.pllw 0 0).wf refC = false := by decide
theorem wf_refuses_recognised_clock :
    (Instr.qAUnrecognised 6).wf refA = false ∧ (Instr.qBUnrecognised 6).wf refB = false := by decide
theorem wf_refuses_defined_commands :
    (Instr.reservedOp 0x5F).wf refA = false ∧ (Instr.reservedArg 0x50).wf refA = false
      ∧ (Instr.reservedArg 0x31).wf refA = false ∧ (Instr.reservedArg 0x61).wf refA = false := by decide
theorem canonical_refuses_stray_fields :
    (rec 0x20 4 0 0).canonical = false ∧ (rec 0x33 0 4 0).canonical = false ∧ (rec 0x00 4 0 1).canonical = false
      ∧ (Request.record ⟨0x40, 0, 0, 0⟩ 1 []).canonical = false
      ∧ (Request.record ⟨0x40, 0, 0, 0⟩ 0 [0]).canonical = false := by decide
theorem wf_refuses_wide_pll_fields :
    (PllFields.mk 16 0 0 0).wf defaultLayout = false ∧ (PllFields.mk 0 1024 0 0).wf defaultLayout = false
      ∧ (PllFields.mk 0 0 16 0).wf defaultLayout = false := by decide

/-! ### Decode: every row's word, written out from R71, R72, R78 and R90 -/

theorem decode_read : decode refA (rec 0x00 0x04 0x0000006C 0) = .read 4 0x6C := by decide
theorem decode_readOor : decode refA (rec 0x00 0x04 0x00000070 0) = .readOor 0x70 := by decide
theorem decode_readOor_last : decode refB (rec 0x00 0x04 0x00000FFC 0) = .readOor 0xFFC := by decide
theorem decode_read_past_window : decode refB (rec 0x00 0x04 0x00001000 0) = .read 4 0x1000 := by decide
theorem decode_readC : decode refC (rec 0x00 0x02 0x00000006 0) = .readC 2 6 := by decide
theorem decode_write : decode refB (rec 0x10 0x04 0x00000064 0x034B0B7D) = .write 4 0x64 0x034B0B7D := by decide
theorem decode_writeOor : decode refB (rec 0x10 0x04 0x00000068 1) = .writeOor 0x68 1 := by decide
theorem decode_writeC : decode refC (rec 0x10 0x01 0x00000005 0xAB) = .writeC 1 5 0xAB := by decide
theorem decode_resetA : decode refA (rec 0x20 0 0 0) = .resetA := by decide
theorem decode_resetB : decode refB (rec 0x20 0 0 0) = .resetB := by decide
theorem decode_resetC : decode refC (rec 0x20 0 0 0) = .resetC := by decide
theorem decode_qANoclk : decode refA (rec 0x30 0 0 0) = .qANoclk := by decide
theorem decode_qAMpll : decode refA (rec 0x31 0 0 0) = .qAMpll := by decide
theorem decode_qAUpll : decode refA (rec 0x32 0 0 0) = .qAUpll := by decide
theorem decode_qAMcu : decode refA (rec 0x33 0 0 0) = .qAMcu := by decide
theorem decode_qAAhb : decode refA (rec 0x34 0 0 0) = .qAAhb := by decide
theorem decode_qAIpg : decode refA (rec 0x35 0 0 0) = .qAIpg := by decide
theorem decode_qA32k : decode refA (rec 0x36 0 0 0) = .qA32k := by decide
theorem decode_qAUnrecognised_7 : decode refA (rec 0x37 0 0 0) = .qAUnrecognised 7 := by decide
theorem decode_qAUnrecognised_15 : decode refA (rec 0x3F 0 0 0) = .qAUnrecognised 15 := by decide
theorem decode_qBNoclk : decode refB (rec 0x30 0 0 0) = .qBNoclk := by decide
theorem decode_qBMpll : decode refB (rec 0x31 0 0 0) = .qBMpllUnsupported := by decide
theorem decode_qBUpll : decode refB (rec 0x32 0 0 0) = .qBUpllUnsupported := by decide
theorem decode_qBMcu : decode refB (rec 0x33 0 0 0) = .qBMcu := by decide
theorem decode_qBHsp : decode refB (rec 0x34 0 0 0) = .qBHsp := by decide
theorem decode_qBIpg : decode refB (rec 0x35 0 0 0) = .qBIpg := by decide
theorem decode_qB32k : decode refB (rec 0x36 0 0 0) = .qB32k := by decide
theorem decode_qBUnrecognised_7 : decode refB (rec 0x37 0 0 0) = .qBUnrecognised 7 := by decide
theorem decode_qBUnrecognised_8 : decode refB (rec 0x38 0 0 0) = .qBUnrecognised 8 := by decide
theorem decode_qCRefused : decode refC (rec 0x30 0 0 0) = .qCRefused 0 := by decide
theorem decode_qCRefused_15 : decode refC (rec 0x3F 0 0 0) = .qCRefused 15 := by decide
theorem decode_save : decode refC (rec 0x40 0 0 0) = .save := by decide
theorem decode_restore : decode refB (.record ⟨0x50, 0, 0, 0⟩ 1 [5]) = .restore 1 [5] := by decide
/-- V-DEC-2, V-DEC-3, V-DEC-9. -/
theorem decode_reservedArg :
    decode refA (rec 0x01 0 0 0) = .reservedArg 0x01 ∧ decode refB (rec 0x2F 0 0 0) = .reservedArg 0x2F
      ∧ decode refC (rec 0x51 0 0 0) = .reservedArg 0x51 := by decide
/-- V-DEC-7, V-DEC-8. -/
theorem decode_reservedOp :
    decode refA (rec 0x60 0 0 0) = .reservedOp 0x60 ∧ decode refC (rec 0xFF 0 0 0) = .reservedOp 0xFF := by decide
theorem decode_pllw : decode refA (.pllw 0x04001800 24000000) = .pllw 0x04001800 24000000 := by decide

/-- R71's own example, as bytes: `10 04 00000008 D0030000`. -/
theorem decode_bytes_write :
    (match decodeBytes refA [0x10, 0x04, 0x00, 0x00, 0x00, 0x08, 0xD0, 0x03, 0x00, 0x00] 0 [] with
      | .ok i => some i
      | .error _ => none) = some (.write 4 8 0xD0030000) := by decide
theorem decode_bytes_truncated :
    (match decodeBytes refA [0x20] 0 [] with
      | .ok _ => none
      | .error e => some e) = some .truncated := by decide
theorem decode_bytes_overlong :
    (match decodeBytes refA (List.replicate 11 0) 0 [] with
      | .ok _ => none
      | .error e => some e) = some .overlong := by decide
theorem encode_bytes_write :
    bytesOfRecord ⟨0x10, 0x04, 0x00000008, 0xD0030000⟩
      = [0x10, 0x04, 0x00, 0x00, 0x00, 0x08, 0xD0, 0x03, 0x00, 0x00] := by decide
theorem tableWord_query : decodeTableWord 8 0x33 = some .qAMcu := by decide
theorem tableWord_pllw : decodeTableWord 32 0x04001800 = some (.pllw 0x04001800 0) := by decide
theorem tableWord_step : resultOf (step (sA.withFetchWord 8 0x36)) = some (.hz 32768) := by decide

/-! ### The PLL formula (V-PLL) -/

/-- V-PLL-1, the source's own example. -/
theorem pll_source_example : resultOf (exec (.pllw 0x04001800 24000000) sA) = some (.hz 143996928) := by decide
/-- V-PLL-9: the negative numerator wraps. -/
theorem pll_negative_numerator : resultOf (exec (.pllw 0x00001600 24000000) sA) = some (.hz 1434322944) := by decide
/-- V-PLL-2 to V-PLL-27, the rest. -/
theorem pll_clamp : [0x00000800, 0x00001000, 0x00001400, 0x00000000].map (pll defaultLayout · 24000000)
    = List.replicate 4 239994880 := by decide
theorem pll_mfn_sign : [0x00092BFF, 0x00092801, 0x03FF3E00].map (pll defaultLayout · 24000000)
    = [475189248, 484789248, 695985152] := by decide
theorem pll_zero_numerator : pll defaultLayout 0x000017FB 24000000 = 0 := by decide
theorem pll_small_bases : [0, 1023, 1024].map (pll defaultLayout 0x04001800 ·) = [0, 0, 6144] := by decide
theorem pll_truncates : pll defaultLayout 0x3C001400 1024 = 0 := by decide
theorem pll_wide : [0x3FFF3DFF, 0x00003DFF, 0xC400D800, 0x3C001800, 0x00003C00].map (pll defaultLayout · 24000000)
    = [46495744, 3772624896, 143996928, 17998848, 719984640] := by decide
theorem pll_bases : [24000511, 24000512, 26000000, 33554432].map (pll defaultLayout 0x04001800 ·)
    = [143996928, 144003072, 155996160, 201326592] := by decide
theorem pll_product_wraps : pll defaultLayout 0x00003DFF 4294967295 = 4293890048 := by decide
theorem pll_lf_max : pll defaultLayout 0x3FFF3FFF 33554432 = 62910464 := by decide

/-! ### READ and WRITE (V-RW, V-C) -/

theorem read_V_RW_1 : resultOf (exec (.read 4 0x08) sA) = some (.value 0xD0030000) := by decide
theorem read_V_RW_17 : refusalIn (exec (.read 2 0x04) sA) = some .undeliverableAccess := by decide
theorem readOor_V_RW_10 : resultOf (exec (.readOor 0x70) sA) = some (.value 0) := by decide
theorem readOor_V_RW_10_log :
    diagsOf (exec (.readOor 0x70) sA) = [.badRegisterAccess "imx25.ccm" 0x70 .read] := by rfl
theorem readC_V_C_3 : resultOf (exec (.readC 4 0x03) sC) = some (.value 0x11111111) := by decide
theorem readC_V_C_7 : refusalIn (exec (.readC 4 0x20) sC) = some .undeliverableAccess := by decide
theorem write_V_RW_5 : wordOf 0 (exec (.write 4 0 0) (put sA 0 0xFFFFFFFF)) = some 0xC000C000 := by decide
theorem write_V_RW_8 : wordOf 16 (exec (.write 4 0x40 0xFFFFFFFF) sA) = some 0 := by decide
theorem writeOor_V_RW_12 : wordsOf (exec (.writeOor 0x68 0xFFFFFFFF) sB) = sB.x := by decide
theorem writeOor_V_RW_12_log :
    diagsOf (exec (.writeOor 0x68 0xFFFFFFFF) sB) = [.badRegisterAccess "imx31.ccm" 0x68 .write] := by rfl
theorem writeC_V_C_5 : wordOf 1 (exec (.writeC 1 0x05 0xAB) sC) = some 0xAB := by decide
theorem writeC_V_C_8 : refusalIn (exec (.writeC 4 0 1) (State.constructed refC)) = some .beforeReset := by decide

/-! ### RESET (V-RST) -/

/-- V-RST-1: word 10 holds the override. -/
theorem resetA_V_RST_1 : wordOf 10 (exec .resetA sA0) = some 0x00000300 := by decide
/-- V-RST-2: the guest's writes are undone. -/
theorem resetA_V_RST_2 : wordsOf (exec .resetA (put (put sA 10 0) 0 0x80000000)) = sA.x := by decide
/-- V-RST-3. -/
theorem resetB_V_RST_3 : (wordsOf (exec .resetB (State.constructed refB))).take 7
    = [0x074B0B7B, 0xFF870B48, 0x49FCFE7F, 0, 0x04001800, 0, 0x04043001] := by decide
theorem resetB_V_RST_3_ready : readyOf (exec .resetB (State.constructed refB)) = some true := by decide
/-- V-RST-6. -/
theorem resetC_V_RST_6 : wordsOf (exec .resetC (put sC 7 5))
    = [0x11111111, 0x22222222, 0x33333333, 0, 0, 0, 0, 0] := by decide

/-! ### QUERY (V-QA, V-QB, V-QC) -/

theorem qANoclk_V_QA_1 : resultOf (exec .qANoclk sA) = some (.hz 0) := by decide
theorem qAMpll_V_QA_2 : resultOf (exec .qAMpll sA) = some (.hz 531988480) := by decide
theorem qAMpll_V_QA_3 : resultOf (exec .qAMpll (put sA 2 0xD0430000)) = some (.hz 24000000) := by decide
theorem qAUpll_V_QA_3 : resultOf (exec .qAUpll (put sA 2 0xD0430000)) = some (.hz 239994880) := by decide
theorem qAMcu_V_QA_13 : resultOf (exec .qAMcu (put sA 2 0x80030000)) = some (.hz 177329493) := by decide
theorem qAMcu_V_QA_16 : resultOf (exec .qAMcu (put (put sA 0 0x00003DFF) 2 0x00002000)) = some (.hz 681985024) := by
  decide
theorem qAAhb_V_QA_11 : resultOf (exec .qAAhb (put sA 2 0x30030000)) = some (.hz 132997120) := by decide
theorem qAAhb_V_QA_5 : resultOf (exec .qAAhb (put sA 2 0xD0032000)) = some (.hz 49873920) := by decide
theorem qAIpg_V_QA_13 : resultOf (exec .qAIpg (put sA 2 0x80030000)) = some (.hz 88664746) := by decide
theorem qAIpg_V_QA_17 : resultOf (exec .qAIpg (put (put sA 0 0x00003DFF) 2 0)) = some (.hz 1886312448) := by decide
theorem qA32k_V_QA_7 : resultOf (exec .qA32k sA) = some (.hz 32768) := by decide
theorem qAUnrecognised_V_QA_8 : diagsOf (exec (.qAUnrecognised 7) sA) = [.unsupportedClock 7] := by decide
theorem qAMcu_V_QA_19 : refusalIn (exec .qAMcu sA0) = some .beforeReset := by decide
theorem qBNoclk_V_QB_1 : resultOf (exec .qBNoclk sB) = some (.hz 0) := by decide
theorem qBMpll_V_QB_11 : diagsOf (exec .qBMpllUnsupported sB) = [.unsupportedClock 1] := by decide
theorem qBUpll_V_QB_12 : diagsOf (exec .qBUpllUnsupported sB) = [.unsupportedClock 2] := by decide
theorem qBMcu_V_QB_3 : resultOf (exec .qBMcu (put sB 0 0x074B0B7D)) = some (.hz 201326592) := by decide
theorem qBMcu_V_QB_5 : resultOf (exec .qBMcu (put sB 0 0x074B0B73)) = some (.hz 26000000) := by decide
theorem qBHsp_V_QB_2 : resultOf (exec .qBHsp sB) = some (.hz 77998080) := by decide
theorem qBHsp_V_QB_8 : resultOf (exec .qBHsp (put sB 0 0x074B0BF5)) = some (.hz 16777216) := by decide
theorem qBIpg_V_QB_2 : resultOf (exec .qBIpg sB) = some (.hz 38999040) := by decide
theorem qBIpg_V_QB_10 : resultOf (exec .qBIpg (put sB 1 0x000038C0)) = some (.hz 4874880) := by decide
theorem qB32k_V_QB_13 : resultOf (exec .qB32k sB) = some (.hz 32768) := by decide
theorem qBUnrecognised_V_QB_14 : diagsOf (exec (.qBUnrecognised 15) sB) = [.unsupportedClock 15] := by decide
theorem qCRefused_V_QC_1 : refusalIn (exec (.qCRefused 0) sC) = some .noQueryCapability := by decide
/-- R195: NoQueryCapability is checked before BeforeReset. -/
theorem qCRefused_before_reset :
    refusalIn (exec (.qCRefused 3) (State.constructed refC)) = some .noQueryCapability := by decide

/-! ### SAVE and RESTORE (V-SR), reserved commands -/

theorem save_V_SR_1 : resultOf (exec .save sC)
    = some (.snapshot 1 [0x11111111, 0x22222222, 0x33333333, 0, 0, 0, 0, 0]) := by decide
theorem save_V_SR_6 : refusalIn (exec .save sA0) = some .beforeReset := by decide
/-- V-SR-7: an ignored word is restored exactly. -/
theorem restore_V_SR_7 : wordOf 16 (exec (.restore 1 (sA.x.set 16 0xFFFFFFFF)) sA) = some 0xFFFFFFFF := by decide
theorem restore_V_SR_4 : resultOf (exec (.restore 1 sA.x.tail) sA) = some .rejected := by decide
theorem reservedOp_V_DEC_7 : refusalIn (exec (.reservedOp 0x60) sA) = some .reservedCommand := by decide
theorem reservedArg_V_DEC_2 : refusalIn (exec (.reservedArg 0x01) sA0) = some .reservedCommand := by decide

/-! ### Witnesses: the hypotheses of each obligation can be met together -/

theorem witness_DecodeEncodeIsIdentity :
    (Instr.readOor 0x70).wf refA = true ∧ (Instr.write 4 0x6C 1).wf refA = true
      ∧ (Instr.qBUnrecognised 7).wf refB = true ∧ (Instr.reservedArg 0x5F).wf refC = true := by decide
theorem witness_EncodeDecodeIsIdentityOnCanonicalRequests :
    (rec 0x10 4 8 0xD0032000).canonical = true ∧ (Request.record ⟨0x50, 0, 0, 0⟩ 1 [7]).canonical = true := by decide
theorem witness_RecordsAreTenBytes :
    (List.replicate 10 (0 : Byte)).length = 10 ∧ (List.replicate 9 (0 : Byte)).length < 10
      ∧ 10 < (List.replicate 11 (0 : Byte)).length := by decide
theorem witness_ReservedCommandsAreRefused_op : 0x60 ≤ (0x60 : Byte).toNat := by decide
theorem witness_ReservedCommandsAreRefused_arg : (0x5F : Byte).toNat / 16 ≠ 3 ∧ (0x5F : Byte).toNat % 16 ≠ 0 := by
  decide
theorem witness_ReservedCommandsAreRefused_query : (0x30 : Byte).toNat / 16 = 3 ∧ (0x3F : Byte).toNat / 16 = 3 := by
  decide
theorem witness_PllWordFieldsRoundTrip :
    defaultLayout.wf = true ∧ (PllFields.mk 15 1023 15 0x200).wf defaultLayout = true := by decide
theorem witness_PllFormulaIsModularArithmetic : ∃ r, sA.cfg.ctl.richer = some r := ⟨_, rfl⟩
theorem witness_PllIgnoresBitsOutsideItsFields : ∀ k, k < 32 → k ≠ 31 → k ≠ 30 → k ≠ 15 → k ≠ 14 →
    (0x04001800 : Word).getLsbD k = (0xC400D800 : Word).getLsbD k := by decide
theorem witness_PllReadsOnlyHighBaseBits : (24000000 : Word).toNat / 1024 = (24000511 : Word).toNat / 1024 := by decide
theorem witness_PllClampsMfiToFive :
    (pllFields defaultLayout 0x00001000).mfi < 5
      ∧ pllFields defaultLayout 0x00001400 = { pllFields defaultLayout 0x00001000 with mfi := 5 } := by decide
theorem witness_PllDoesNotWrapBelowTheBounds :
    let f := pllFields defaultLayout 0x04001800
    0 ≤ ((mfiOf f * mfdOf f : Nat) : Int) + mfnOf f ∧ (138556415 : Word).toNat < 138556416
      ∧ 2 * ((138556415 : Word).toNat / 1024) * (((mfiOf f * mfdOf f : Nat) : Int) + mfnOf f).toNat < 2 ^ 32
      ∧ 2 * ((138556415 : Word).toNat / 1024) * (((mfiOf f * mfdOf f : Nat) : Int) + mfnOf f).toNat
          / (mfdOf f * pdOf f) < 2 ^ 22 := by decide

theorem witness_ReadReturnsTheWord_not_ready :
    ∃ r, sA0.cfg.ctl.richer = some r ∧ sA0.Inv ∧ sA0.ready = false := ⟨_, rfl, by decide, by decide⟩
theorem witness_ReadReturnsTheWord_undeliverable :
    ∃ r, sA.cfg.ctl.richer = some r ∧ sA.Inv ∧ sA.ready = true ∧ (2 : Byte) ≠ 4 ∧ (0x6D : Word).toNat % 4 ≠ 0
      ∧ sA.cfg.window ≤ (0x1000 : Word).toNat := ⟨_, rfl, by decide, by decide, by decide, by decide, by decide⟩
theorem witness_ReadReturnsTheWord_last :
    ∃ r, sA.cfg.ctl.richer = some r ∧ sA.Inv ∧ sA.ready = true ∧ (0x6C : Word).toNat % 4 = 0
      ∧ (0x6C : Word).toNat < 4 * sA.cfg.words := ⟨_, rfl, by decide, by decide, by decide, by decide⟩
theorem witness_ReadReturnsTheWord_out_of_range :
    ∃ r, sA.cfg.ctl.richer = some r ∧ sA.Inv ∧ sA.ready = true ∧ (0x70 : Word).toNat % 4 = 0
      ∧ 4 * sA.cfg.words ≤ (0x70 : Word).toNat ∧ (0x70 : Word).toNat < sA.cfg.window :=
  ⟨_, rfl, by decide, by decide, by decide, by decide, by decide⟩
theorem witness_OutOfRangeReadReturnsZeroAndLogs :
    ∃ r, sB.cfg.ctl.richer = some r ∧ sB.ready = true ∧ (0xFFC : Word).toNat % 4 = 0
      ∧ 4 * sB.cfg.words ≤ (0xFFC : Word).toNat ∧ (0xFFC : Word).toNat < sB.cfg.window :=
  ⟨_, rfl, by decide, by decide, by decide, by decide⟩
theorem witness_WriteAppliesThePolicy_not_ready :
    ∃ r, sA0.cfg.ctl.richer = some r ∧ sA0.Inv ∧ sA0.ready = false := ⟨_, rfl, by decide, by decide⟩
theorem witness_WriteAppliesThePolicy_undeliverable :
    ∃ r, sB.cfg.ctl.richer = some r ∧ sB.Inv ∧ sB.ready = true ∧ (1 : Byte) ≠ 4 ∧ (0x65 : Word).toNat % 4 ≠ 0
      ∧ sB.cfg.window ≤ (0x1000 : Word).toNat := ⟨_, rfl, by decide, by decide, by decide, by decide, by decide⟩
theorem witness_WriteAppliesThePolicy_in_bounds :
    ∃ r, sA.cfg.ctl.richer = some r ∧ sA.Inv ∧ sA.ready = true ∧ (0x6C : Word).toNat % 4 = 0
      ∧ (0x6C : Word).toNat < 4 * sA.cfg.words
      ∧ ((0x00 : Word).toNat / 4, Policy.masked 0x3FFF3FFF 0x80000000) ∈ r.policies
      ∧ ((0x40 : Word).toNat / 4, Policy.ignored) ∈ r.policies
      ∧ (0x6C : Word).toNat / 4 ∉ r.policies.map Prod.fst :=
  ⟨_, rfl, by decide, by decide, by decide, by decide, by decide, by decide, by decide⟩
theorem witness_WriteAppliesThePolicy_out_of_range :
    ∃ r, sB.cfg.ctl.richer = some r ∧ sB.Inv ∧ sB.ready = true ∧ (0x68 : Word).toNat % 4 = 0
      ∧ 4 * sB.cfg.words ≤ (0x68 : Word).toNat ∧ (0x68 : Word).toNat < sB.cfg.window :=
  ⟨_, rfl, by decide, by decide, by decide, by decide, by decide⟩
theorem witness_OutOfRangeWriteOnlyLogs :
    ∃ r, sA.cfg.ctl.richer = some r ∧ sA.ready = true ∧ (0x70 : Word).toNat % 4 = 0
      ∧ 4 * sA.cfg.words ≤ (0x70 : Word).toNat ∧ (0x70 : Word).toNat < sA.cfg.window :=
  ⟨_, rfl, by decide, by decide, by decide, by decide⟩
theorem witness_MaskedWriteReadsBackUnderTheMask :
    ∃ r, sA.cfg.ctl.richer = some r ∧ sA.Inv ∧ sA.ready = true
      ∧ (1, Policy.masked 0x3FFF3FFF 0x80000000) ∈ r.policies ∧ sA.x[1]? = some 0x84042800 :=
  ⟨_, rfl, by decide, by decide, by decide, by decide⟩
theorem witness_IgnoredWordKeepsItsValue :
    ∃ r, sB.cfg.ctl.richer = some r ∧ sB.Inv ∧ sB.ready = true ∧ (3, Policy.ignored) ∈ r.policies :=
  ⟨_, rfl, by decide, by decide, by decide⟩
theorem witness_AccessesTouchAtMostOneWord_write : ∃ t, sA.Inv ∧ exec (.write 4 0x6C 1) sA = .next t ∧ t.x ≠ sA.x :=
  ⟨_, by decide, rfl, by decide⟩
theorem witness_AccessesTouchAtMostOneWord_writeC : ∃ t, sC.Inv ∧ exec (.writeC 1 0x1F 1) sC = .next t ∧ t.x ≠ sC.x :=
  ⟨_, by decide, rfl, by decide⟩
theorem witness_AccessesTouchAtMostOneWord_others :
    (∃ t, exec (.writeOor 0x70 1) sA = .next t) ∧ (∃ t, exec (.read 4 0x6C) sA = .next t)
      ∧ (∃ t, exec (.readOor 0x70) sA = .next t) ∧ ∃ t, sC.Inv ∧ exec (.readC 1 0x1F) sC = .next t :=
  ⟨⟨_, rfl⟩, ⟨_, rfl⟩, ⟨_, rfl⟩, _, by decide, rfl⟩
theorem witness_AccessesAreIdempotent :
    (∃ t, sA.Inv ∧ (Instr.write 4 0 5).isWrite = true ∧ exec (.write 4 0 5) sA = .next t)
      ∧ ∃ t, (Instr.readOor 0x70).isRead = true ∧ exec (.readOor 0x70) sA = .next t :=
  ⟨⟨_, by decide, rfl, rfl⟩, _, rfl, rfl⟩
theorem witness_BaselineIsPlainStorage :
    sC.cfg.ctl = .c ∧ sC.Inv ∧ sC.ready = true ∧ (0x1F : Word).toNat < sC.cfg.window
      ∧ ∃ t, exec .resetC sC = .next t := ⟨rfl, by decide, by decide, by decide, _, rfl⟩
theorem witness_BaselineIsPlainStorage_changes :
    (∃ t, exec (.writeC 1 0x1F 1) sC = .next t ∧ t.x[7]? ≠ sC.x[7]?)
      ∧ (∃ t, exec .resetC (put sC 7 5) = .next t ∧ t.x[7]? ≠ (put sC 7 5).x[7]?)
      ∧ ∃ t, exec (.restore 1 (List.replicate 8 9)) sC = .next t ∧ t.x[0]? ≠ sC.x[0]? :=
  ⟨⟨_, rfl, by decide⟩, ⟨_, rfl, by decide⟩, _, rfl, by decide⟩
theorem witness_SaveReturnsTheImage : sA.ready = true ∧ sA0.ready = false := by decide
theorem witness_RestoreIsExactOrRejected_accepted : 1 = sA0.cfg.snapVersion ∧ sA.x.length = sA0.cfg.words := by decide
theorem witness_RestoreIsExactOrRejected_rejected : 2 ≠ sA.cfg.snapVersion ∧ sA.x.tail.length ≠ sA.cfg.words := by
  decide
theorem witness_SnapshotRoundTripIsLossless :
    ∃ t image, sA.Inv ∧ exec .save sA = .next t ∧ t.result = .snapshot 1 image ∧ sA0.cfg = sA.cfg
      ∧ Instr.qAMcu.isQuery = true ∧ (∃ a, exec .qAMcu sA = .next a) ∧ (Instr.read 4 0).isRead = true
      ∧ ∃ a, exec (.read 4 0) sA = .next a :=
  ⟨_, _, by decide, rfl, rfl, rfl, rfl, ⟨_, rfl⟩, rfl, _, rfl⟩
theorem witness_ResetALoadsTheTableThenOverrides :
    ∃ r f o, sA0.cfg.ctl = .a r f o ∧ sA0.cfg.wf = true ∧ 9 ≠ o.idx ∧ (8 : Nat) < 32 ∧ o.mask.getLsbD 8 = true :=
  ⟨_, _, _, rfl, by decide, by decide, by decide, by decide⟩
theorem witness_ResetBLoadsTheTable : ∃ r f, sB.cfg.ctl = .b r f ∧ sB.cfg.wf = true := ⟨_, _, rfl, by decide⟩
theorem witness_ResetCLoadsTheTableAndZeros : sC.cfg.ctl = .c ∧ sC.cfg.wf = true := by decide
theorem witness_ResetIsHistoryFree :
    Instr.resetA.isReset = true ∧ Instr.resetA.wf sA.cfg = true ∧ (put sA 0 5).cfg = sA.cfg := ⟨rfl, by decide, rfl⟩
theorem witness_NoClockIsZero :
    (∃ r f o, sA.cfg.ctl = .a r f o ∧ sA.ready = true) ∧ ∃ r f, sB.cfg.ctl = .b r f ∧ sB.ready = true :=
  ⟨⟨_, _, _, rfl, rfl⟩, _, _, rfl, rfl⟩
/-- Also McuAFollowsTheArmSource, AhbAndIpgDivideTheMcuClock, MpllIsCrystalOrPll and UpllIsNeverBypassed. -/
theorem witness_variantA_queries :
    ∃ r f o, sA.cfg.ctl = .a r f o ∧ sA.Inv ∧ sA.ready = true ∧ 1#4 ∈ r.supported ∧ 2#4 ∈ r.supported
      ∧ 3#4 ∈ r.supported ∧ 4#4 ∈ r.supported ∧ 5#4 ∈ r.supported ∧ 6#4 ∈ r.supported :=
  ⟨_, _, _, rfl, by decide, by decide, by decide, by decide, by decide, by decide, by decide, by decide⟩
/-- Also McuBIsReferenceOrPll and HspAndIpgDivideTheMcuClock. -/
theorem witness_variantB_queries :
    ∃ r f, sB.cfg.ctl = .b r f ∧ sB.Inv ∧ sB.ready = true ∧ 3#4 ∈ r.supported ∧ 4#4 ∈ r.supported
      ∧ 5#4 ∈ r.supported ∧ 6#4 ∈ r.supported :=
  ⟨_, _, rfl, by decide, by decide, by decide, by decide, by decide, by decide⟩
/-- Word 5 is no named word: the two states differ there and agree on every named field. -/
theorem witness_QueriesOfADependOnNamedFieldsOnly :
    ∃ r f o t, sA.cfg.ctl = .a r f o ∧ (put sA 5 7).cfg = sA.cfg ∧ sA.Inv ∧ (put sA 5 7).Inv ∧ sA.ready = true
      ∧ (put sA 5 7).ready = true ∧ sA.x[f.upllWord]? = (put sA 5 7).x[f.upllWord]?
      ∧ sA.x[f.mpllWord]? = (put sA 5 7).x[f.mpllWord]?
      ∧ isSet sA.x f.mpllBypass = isSet (put sA 5 7).x f.mpllBypass
      ∧ isSet sA.x f.armSrc = isSet (put sA 5 7).x f.armSrc
      ∧ fieldAt sA.x f.armClkDiv = fieldAt (put sA 5 7).x f.armClkDiv
      ∧ fieldAt sA.x f.ahbClkDiv = fieldAt (put sA 5 7).x f.ahbClkDiv
      ∧ exec .qAMcu sA = .next t ∧ sA.x ≠ (put sA 5 7).x :=
  ⟨_, _, _, _, rfl, rfl, by decide, by decide, rfl, rfl, by decide, by decide, by decide, by decide, by decide,
    by decide, rfl, by decide⟩
theorem witness_QueriesOfBDependOnNamedFieldsOnly :
    ∃ r f t, sB.cfg.ctl = .b r f ∧ (put sB 5 7).cfg = sB.cfg ∧ sB.Inv ∧ (put sB 5 7).Inv ∧ sB.ready = true
      ∧ (put sB 5 7).ready = true ∧ sB.x[f.mpllWord]? = (put sB 5 7).x[f.mpllWord]?
      ∧ fieldAt sB.x f.refsel = fieldAt (put sB 5 7).x f.refsel
      ∧ isSet sB.x f.bypassMode = isSet (put sB 5 7).x f.bypassMode
      ∧ isSet sB.x f.pllEnable = isSet (put sB 5 7).x f.pllEnable
      ∧ fieldAt sB.x f.hspDiv = fieldAt (put sB 5 7).x f.hspDiv
      ∧ fieldAt sB.x f.ipgDiv = fieldAt (put sB 5 7).x f.ipgDiv
      ∧ exec .qBIpg sB = .next t ∧ sB.x ≠ (put sB 5 7).x :=
  ⟨_, _, _, rfl, rfl, by decide, by decide, rfl, rfl, by decide, by decide, by decide, by decide, by decide,
    by decide, rfl, by decide⟩
theorem witness_UnrecognisedClockIsZeroAndLogs :
    (∃ r f o, sA.cfg.ctl = .a r f o ∧ sA.ready = true ∧ 7 ≤ (7 : ClockId).toNat)
      ∧ ∃ r f, sB.cfg.ctl = .b r f ∧ sB.ready = true ∧ 7 ≤ (15 : ClockId).toNat :=
  ⟨⟨_, _, _, rfl, rfl, by decide⟩, _, _, rfl, rfl, by decide⟩
theorem witness_VariantBHasNoPllOutputs : ∃ r f, sB.cfg.ctl = .b r f ∧ sB.ready = true := ⟨_, _, rfl, rfl⟩
theorem witness_QueryOfAnyClockIdCompletes :
    ∃ r, sB.cfg.ctl.richer = some r ∧ sB.cfg.wf = true ∧ sB.ready = true ∧ (0x31 : Byte).toNat / 16 = 3
      ∧ argOf 0x31 ≠ 0 ∧ argOf 0x31 ∉ r.supported ∧ argOf 0x30 = 0 ∧ argOf 0x36 ≠ 0 ∧ argOf 0x36 ∈ r.supported :=
  ⟨_, rfl, by decide, rfl, by decide, by decide, by decide, by decide, by decide, by decide⟩
theorem witness_BaselineRefusesQueries : (State.constructed refC).cfg.ctl = .c ∧ (0x3F : Byte).toNat / 16 = 3 :=
  ⟨rfl, by decide⟩
/-- REF_A and REF_B as they are: the MPLL word of each has a `Masked` policy. REF_A's UPLL word too. -/
theorem witness_NextQuerySeesTheWrittenWord_A :
    ∃ r f o, sA.cfg.ctl = .a r f o ∧ sA.Inv ∧ sA.ready = true ∧ 1#4 ∈ r.supported ∧ 2#4 ∈ r.supported
      ∧ (f.mpllWord, Policy.masked 0x3FFF3FFF 0x80000000) ∈ r.policies
      ∧ (f.upllWord, Policy.masked 0x3FFF3FFF 0x80000000) ∈ r.policies
      ∧ isSet (sA.x.set f.mpllWord 0x84001800) f.mpllBypass = false :=
  ⟨_, _, _, rfl, by decide, rfl, by decide, by decide, by decide, by decide, by decide⟩
theorem witness_NextQuerySeesTheWrittenWord_B :
    ∃ r f, sB.cfg.ctl = .b r f ∧ sB.Inv ∧ sB.ready = true ∧ 3#4 ∈ r.supported
      ∧ (f.mpllWord, Policy.masked 0x3FFF3FFF 0) ∈ r.policies
      ∧ isSet (sB.x.set f.mpllWord 0x04001800) f.bypassMode = false
      ∧ isSet (sB.x.set f.mpllWord 0x04001800) f.pllEnable = true :=
  ⟨_, _, rfl, by decide, rfl, by decide, by decide, by decide, by decide⟩
/-- REF_A's word 2 holds all four control fields and has no declared policy. -/
theorem witness_NextQuerySeesTheWrittenControlField_A :
    ∃ r f o, sA.cfg.ctl = .a r f o ∧ sA.Inv ∧ sA.ready = true ∧ 2 < sA.cfg.words ∧ 2 = f.mpllBypass.idx
      ∧ 2 = f.armSrc.idx ∧ 2 = f.armClkDiv.idx ∧ 2 = f.ahbClkDiv.idx ∧ 1#4 ∈ r.supported ∧ 3#4 ∈ r.supported
      ∧ 4#4 ∈ r.supported ∧ 2 ∉ r.policies.map Prod.fst :=
  ⟨_, _, _, rfl, by decide, rfl, by decide, rfl, rfl, rfl, rfl, by decide, by decide, by decide, by decide⟩
/-- REF_B's word 0, which is masked, holds REFSEL and the two control bits, and its word 1 the dividers. -/
theorem witness_NextQuerySeesTheWrittenControlField_B :
    ∃ r f, sB.cfg.ctl = .b r f ∧ sB.Inv ∧ sB.ready = true ∧ 1 < sB.cfg.words ∧ 0 = f.refsel.idx
      ∧ 0 = f.bypassMode.idx ∧ 0 = f.pllEnable.idx ∧ 1 = f.hspDiv.idx ∧ 1 = f.ipgDiv.idx ∧ 3#4 ∈ r.supported
      ∧ 4#4 ∈ r.supported ∧ 5#4 ∈ r.supported ∧ (0, Policy.masked 0xFFFFFFFF 0x04000000) ∈ r.policies :=
  ⟨_, _, rfl, by decide, rfl, by decide, rfl, rfl, rfl, rfl, rfl, by decide, by decide, by decide, by decide⟩
/-- `storedAs` on a word of each kind of policy, with R122's example. -/
theorem witness_storedAs :
    ∃ r f o, refA.ctl = .a r f o ∧ policyAt r 0 = .masked 0x3FFF3FFF 0x80000000 ∧ policyAt r 16 = .ignored
      ∧ policyAt r 2 = .plain ∧ applyPolicy (policyAt r 0) 0x800B2C01 0 = 0x80000000 :=
  ⟨_, _, _, rfl, by decide, by decide, by decide, by decide⟩
/-- A configuration with the upstream clocks left out of the supported set: AHB and HSP (or IPG) alone. -/
theorem witness_upstream_clocks_unsupported :
    (∃ r f o, (State.resetOf (richerA fun r => { r with supported := [4] })).cfg.ctl = .a r f o
      ∧ (State.resetOf (richerA fun r => { r with supported := [4] })).Inv ∧ 4#4 ∈ r.supported
      ∧ 3#4 ∉ r.supported)
      ∧ ∃ r f, (State.resetOf (richerB fun r => { r with supported := [5] })).cfg.ctl = .b r f
        ∧ (State.resetOf (richerB fun r => { r with supported := [5] })).Inv ∧ 5#4 ∈ r.supported
        ∧ 3#4 ∉ r.supported ∧ 4#4 ∉ r.supported :=
  ⟨⟨_, _, _, rfl, by decide, by decide, by decide⟩, _, _, rfl, by decide, by decide, by decide, by decide⟩
theorem witness_StepRunsTheNextRequest :
    (sA.withFetchWord 8 0x33).pending = rec 0x33 0 0 0 :: [] ∧ sA.pending = [] := by decide
theorem witness_StepKeepsTheInvariant : ∃ t, (sA.withFetchWord 8 0x33).Inv ∧ step (sA.withFetchWord 8 0x33) = .next t :=
  ⟨_, by decide, rfl⟩
theorem witness_ResetStateIsResetOfConstructed :
    Instr.resetA.isReset = true ∧ Instr.resetA.wf refA = true ∧ Instr.resetB.isReset = true
      ∧ Instr.resetB.wf refB = true ∧ Instr.resetC.isReset = true ∧ Instr.resetC.wf refC = true := by decide
theorem witness_LogOnlyGrowsAndReadyStays :
    (∃ t, exec (.readOor 0x70) sA = .next t ∧ sA.ready = true)
      ∧ ∃ t, exec .resetA sA0 = .next t ∧ t.ready ≠ sA0.ready := ⟨⟨_, rfl, rfl⟩, _, rfl, by decide⟩
theorem witness_OnlyThreeTransactionsChangeRegisters : ∃ t, exec (.write 4 0x0C 9) sA = .next t ∧ t.x ≠ sA.x :=
  ⟨_, rfl, by decide⟩
theorem witness_ReadOnlyBitsSurviveEveryTransaction :
    ∃ r t, sA.cfg.ctl.richer = some r ∧ sA.Inv ∧ (Instr.write 4 0 0).isReset = false
      ∧ (Instr.write 4 0 0).isRestore = false ∧ exec (.write 4 0 0) sA = .next t
      ∧ (16, Policy.ignored) ∈ r.policies ∧ (0, Policy.masked 0x3FFF3FFF 0x80000000) ∈ r.policies
      ∧ (0x3FFF3FFF : Word).getLsbD 30 = false ∧ (0x3FFF3FFF : Word).getLsbD 31 = false :=
  ⟨_, _, rfl, by decide, rfl, rfl, rfl, by decide, by decide, by decide, by decide⟩
/-- Bit 26 of REF_B's word 0 is in both W and F. -/
theorem witness_ReadOnlyBitsSurviveEveryTransaction_forced :
    ∃ r t, sB.cfg.ctl.richer = some r ∧ exec (.write 4 0 0) sB = .next t
      ∧ (0, Policy.masked 0xFFFFFFFF 0x04000000) ∈ r.policies ∧ (0xFFFFFFFF : Word).getLsbD 26 = true
      ∧ (0x04000000 : Word).getLsbD 26 = true :=
  ⟨_, _, rfl, rfl, by decide, by decide, by decide⟩
theorem witness_RefusalsFollowTheOrderOfChecks :
    (Instr.read 4 2).wf sA.cfg = true ∧ refusalOf sA (.read 4 2) = some .undeliverableAccess
      ∧ refusalOf sA0 (.read 4 2) = some .beforeReset ∧ refusalOf sA (.read 4 0) = none := by decide
theorem witness_DeliveredTransactionsReturnTheirResult :
    (Instr.read 4 0x6C).wf sA.cfg = true ∧ hostDuty sA (.read 4 0x6C) = true
      ∧ hostDuty sA0 (.read 4 0x6C) = false := by decide
theorem witness_RefusedTransactionChangesNothing :
    (sA0.withFetchWord 8 0x33).pending = rec 0x33 0 0 0 :: []
      ∧ step (sA0.withFetchWord 8 0x33) = .refused .beforeReset := ⟨by decide, rfl⟩
/-- The two states differ in their outputs and in the requests to come. -/
theorem witness_OutputsAreNeverReadBack :
    ∃ t, ({ sA with result := .accepted, diags := [.unsupportedClock 9] } : State).cfg = sA.cfg
      ∧ ({ sA with result := .accepted, diags := [.unsupportedClock 9] } : State).x = sA.x
      ∧ ({ sA with result := .accepted, diags := [.unsupportedClock 9] } : State).ready = sA.ready
      ∧ exec .qAMcu sA = .next t ∧ exec (.read 1 0) sA = .refused .undeliverableAccess :=
  ⟨_, rfl, rfl, rfl, rfl, rfl⟩

end Sys2Proof.Tests
end

section
/-! PROOFS. QUERY of any ClockId on a richer variant (spec/30_encoding.md R79, spec/42_clock_query.md R150): every row of
the variant other than NOCLK's is `answerQuery` for its ClockId, so the two laws of `answerQuery` settle them all. -/

namespace Sys2Proof.Machine

variable {s : State} {r : Richer} {clk : ClockId}

/-- R78's ClockIds: those with a row of their own, and the unrecognised ones. -/
theorem clockId_cases : ∀ clk : ClockId, clk = 0#4 ∨ clk = 1#4 ∨ clk = 2#4 ∨ clk = 3#4 ∨ clk = 4#4 ∨ clk = 5#4
    ∨ clk = 6#4 ∨ 7 ≤ clk.toNat := by decide

/-- The rows that never compute a frequency answer as `answerQuery` does outside the supported set. -/
theorem whenReady_unsupportedQuery (hs : clk ∉ r.supported) (v : Word) :
    whenReady s (unsupportedQuery s clk) = answerQuery s r clk v := by
  simp [answerQuery, supports, hs]

theorem exec_qAUnrecognised {f : FieldsA} {o : Override} (hc : s.cfg.ctl = .a r f o) (h7 : 7 ≤ clk.toNat) :
    exec (.qAUnrecognised clk) s = whenReady s (unsupportedQuery s clk) :=
  (whenA_a hc).trans (if_pos h7)

theorem exec_qBUnrecognised {f : FieldsB} (hc : s.cfg.ctl = .b r f) (h7 : 7 ≤ clk.toNat) :
    exec (.qBUnrecognised clk) s = whenReady s (unsupportedQuery s clk) :=
  (whenB_b hc).trans (if_pos h7)

/-- D7: the unrecognised ClockIds are outside every admitted supported set of variant A. -/
theorem exec_queryRowA {f : FieldsA} {o : Override} (hc : s.cfg.ctl = .a r f o) (hw : s.cfg.wf = true)
    (h0 : clk ≠ 0#4) : ∃ v, exec (queryRowA clk) s = answerQuery s r clk v := by
  rcases clockId_cases clk with h | rfl | rfl | rfl | rfl | rfl | rfl | h7
  · exact absurd h h0
  · exact ⟨mpllA r f s.x, whenA_a hc⟩
  · exact ⟨upllA r f s.x, whenA_a hc⟩
  · exact ⟨mcuA r f s.x, whenA_a hc⟩
  · exact ⟨ahbA r f s.x, whenA_a hc⟩
  · exact ⟨ipgA r f s.x, whenA_a hc⟩
  · exact ⟨r.ckil, whenA_a hc⟩
  · have hs : clk ∉ r.supported := fun hm => absurd (clocksA_lt (supportedA hc hw hm)) (by omega)
    rw [queryRowA_unrecognised h7, exec_qAUnrecognised hc h7]
    exact ⟨0#32, whenReady_unsupportedQuery hs _⟩

/-- The same for variant B's rows of a ClockId that its chain does not name (R175). -/
theorem whenB_unsupportedQuery {f : FieldsB} (hc : s.cfg.ctl = .b r f) (hw : s.cfg.wf = true) (hn : clk ∉ clocksB)
    (v : Word) : (whenB s fun _ _ => whenReady s (unsupportedQuery s clk)) = answerQuery s r clk v :=
  (whenB_b hc).trans (whenReady_unsupportedQuery (fun hm => hn (supportedB hc hw hm)) v)

/-- D7: the MPLL, the UPLL and the unrecognised ClockIds are outside every admitted supported set of variant B. -/
theorem exec_queryRowB {f : FieldsB} (hc : s.cfg.ctl = .b r f) (hw : s.cfg.wf = true) (h0 : clk ≠ 0#4) :
    ∃ v, exec (queryRowB clk) s = answerQuery s r clk v := by
  rcases clockId_cases clk with h | rfl | rfl | rfl | rfl | rfl | rfl | h7
  · exact absurd h h0
  · exact ⟨0#32, whenB_unsupportedQuery hc hw (by decide) _⟩
  · exact ⟨0#32, whenB_unsupportedQuery hc hw (by decide) _⟩
  · exact ⟨mcuB r f s.x, whenB_b hc⟩
  · exact ⟨hspB r f s.x, whenB_b hc⟩
  · exact ⟨ipgB r f s.x, whenB_b hc⟩
  · exact ⟨r.ckil, whenB_b hc⟩
  · have hs : clk ∉ r.supported := fun hm => absurd (clocksB_lt (supportedB hc hw hm)).1 (by omega)
    rw [queryRowB_unrecognised h7, exec_qBUnrecognised hc h7]
    exact ⟨0#32, whenReady_unsupportedQuery hs _⟩

/-- R150: a QUERY row of a richer variant answers by the supported set, whatever the ClockId but NOCLK. -/
theorem exec_queryRow (hr : s.cfg.ctl.richer = some r) (hw : s.cfg.wf = true) (h0 : clk ≠ 0#4) :
    ∃ v, exec (queryRow s.cfg.ctl.variant clk) s = answerQuery s r clk v := by
  cases hc : s.cfg.ctl with
  | a r' f o =>
    obtain rfl : r' = r := Option.some.inj ((richer_a hc).symm.trans hr)
    exact exec_queryRowA hc hw h0
  | b r' f =>
    obtain rfl : r' = r := Option.some.inj ((richer_b hc).symm.trans hr)
    exact exec_queryRowB hc hw h0
  | c => simp [hc, Controller.richer] at hr

/-- R151, R170: NOCLK is answered with 0 and no diagnostic, whatever the supported set. -/
theorem exec_queryRow_noclk (hr : s.cfg.ctl.richer = some r) (hd : s.ready = true) :
    exec (queryRow s.cfg.ctl.variant 0#4) s = .next { s with result := .hz 0#32 } := by
  cases hc : s.cfg.ctl with
  | a r' f o => exact (whenA_a hc).trans (whenReady_ready hd)
  | b r' f => exact (whenB_b hc).trans (whenReady_ready hd)
  | c => simp [hc, Controller.richer] at hr

/-- Settles O45: the record selects its variant's QUERY row, and every such row but NOCLK's is `answerQuery`. -/
theorem queryOfAnyClockIdCompletes : Obligations.QueryOfAnyClockIdCompletes := by
  intro s r q version image hr hw hd hq
  have hop : opOf q.cmd = 3#4 := BitVec.eq_of_toNat_eq ((opOf_toNat q.cmd).trans hq)
  rw [decode_query_record s.cfg hop]
  refine ⟨argOf_toNat q.cmd, fun h0 hs => ?unsupported, fun h0 => ?noclk, fun h0 hs => ?supported⟩
  case unsupported =>
    obtain ⟨v, hv⟩ := exec_queryRow hr hw h0
    exact hv.trans (answerQuery_unsupported hd hs)
  case noclk =>
    rw [h0]
    exact exec_queryRow_noclk hr hd
  case supported =>
    obtain ⟨v, hv⟩ := exec_queryRow hr hw h0
    exact ⟨v, hv.trans (answerQuery_supported hd hs)⟩

end Sys2Proof.Machine
end

section
/-! PROOFS. READ and WRITE (spec/41_register_access.md R120 to R129): one equation per outcome of an access, what an
access can have done to the register file (from `exec_next`), and the statements of the family. -/

namespace Sys2Proof.Machine

variable {c : Config} {s t : State} {r : Richer} {i : Instr} {size : Byte} {offset v : Word} {x y : List Word}

/-! ### The conditions on an offset -/

theorem deliverable_iff :
    deliverable c size offset = true ↔ size = 4#8 ∧ offset.toNat % 4 = 0 ∧ offset.toNat < c.window := by
  simp [deliverable, and_assoc]

theorem deliverable_eq_false_iff :
    deliverable c size offset = false ↔ size ≠ 4#8 ∨ offset.toNat % 4 ≠ 0 ∨ c.window ≤ offset.toNat := by
  rw [← Bool.not_eq_true, deliverable_iff, not_and_or, not_and_or, not_lt]

theorem inBounds_iff : inBounds c offset = true ↔ offset.toNat < 4 * c.words := by simp [inBounds]

theorem inBounds_eq_false_iff : inBounds c offset = false ↔ 4 * c.words ≤ offset.toNat := by simp [inBounds]

theorem deliverableC_iff : deliverableC c offset = true ↔ offset.toNat < c.window := by simp [deliverableC]

/-! ### READ and WRITE of variants A and B, one outcome each -/

theorem exec_read_not_ready (hr : s.cfg.ctl.richer = some r) (hd : s.ready = false) :
    exec (.read size offset) s = .refused .beforeReset :=
  (whenRicher_some hr).trans (whenReady_not_ready hd)

theorem exec_read_undeliverable (hr : s.cfg.ctl.richer = some r) (hd : s.ready = true)
    (hdel : deliverable s.cfg size offset = false) :
    exec (.read size offset) s = .refused .undeliverableAccess := by
  simp [exec, execRead, whenRicher_some hr, whenReady_ready hd, hdel]

theorem exec_read_in_bounds (hr : s.cfg.ctl.richer = some r) (hd : s.ready = true)
    (hdel : deliverable s.cfg size offset = true) (hin : inBounds s.cfg offset = true) :
    exec (.read size offset) s = readWord s offset := by
  simp [exec, execRead, whenRicher_some hr, whenReady_ready hd, hdel, hin]

theorem exec_read_out_of_range (hr : s.cfg.ctl.richer = some r) (hd : s.ready = true)
    (hdel : deliverable s.cfg size offset = true) (hout : inBounds s.cfg offset = false) :
    exec (.read size offset) s = readOutOfRange r s offset := by
  simp [exec, execRead, whenRicher_some hr, whenReady_ready hd, hdel, hout]

theorem exec_readOor_eq (hr : s.cfg.ctl.richer = some r) (hd : s.ready = true)
    (hdel : deliverable s.cfg 4#8 offset = true) (hout : inBounds s.cfg offset = false) :
    exec (.readOor offset) s = readOutOfRange r s offset := by
  simp [exec, execReadOor, whenRicher_some hr, whenReady_ready hd, hdel, hout]

theorem exec_writeOor_eq (hr : s.cfg.ctl.richer = some r) (hd : s.ready = true)
    (hdel : deliverable s.cfg 4#8 offset = true) (hout : inBounds s.cfg offset = false) :
    exec (.writeOor offset v) s = writeOutOfRange r s offset := by
  simp [exec, execWriteOor, whenRicher_some hr, whenReady_ready hd, hdel, hout]

/-! ### READ.C and WRITE.C -/

theorem exec_readC_eq (hc : s.cfg.ctl = .c) (hd : s.ready = true) (hw : offset.toNat < s.cfg.window) :
    exec (.readC size offset) s = readWord s offset := by
  simp [exec, execReadC, whenC_c hc, whenReady_ready hd, deliverableC_iff.mpr hw]

theorem exec_writeC_eq (hc : s.cfg.ctl = .c) (hd : s.ready = true) (hw : offset.toNat < s.cfg.window) :
    exec (.writeC size offset v) s = .next { s with x := s.x.set (offset.toNat / 4) v, result := .nothing } := by
  simp [exec, execWriteC, whenC_c hc, whenReady_ready hd, deliverableC_iff.mpr hw, wordIndex_eq_div, State.setWord,
    State.answer]

/-- R26: inside the baseline's window every offset lies in a word of the register file. -/
theorem baseline_word_lt (hc : c.ctl = .c) (hwf : c.wf = true) (hw : offset.toNat < c.window) :
    offset.toNat / 4 < c.words := by
  have := (baseline_window hc hwf).1
  omega

/-! ### A word read back, and the frame of one stored word -/

/-- R120, R127: a read inside the list answers the word as it stands and changes nothing but the result. -/
theorem readWord_answers_word (h : offset.toNat / 4 < s.x.length) :
    ∃ v, s.x[offset.toNat / 4]? = some v ∧ readWord s offset = .next { s with result := .value v } :=
  ⟨wordAt s.x (offset.toNat / 4), wordAt_of_lt h, by rw [readWord_eq, wordIndex_eq_div]⟩

theorem set_wordAt_self (x : List Word) (i : Nat) : x.set i (wordAt x i) = x := by
  by_cases h : i < x.length
  · simp [wordAt, List.getD_eq_getElem?_getD, h]
  · exact List.set_eq_of_length_le (by omega)

/-- The word `k` is the only one that can differ, and then it is one of the `n` words. -/
theorem frame_of_set {k n : Nat} (h : y = x ∨ k < n ∧ ∃ w, y = x.set k w) :
    y.length = x.length ∧ (∀ j, j ≠ k → y[j]? = x[j]?) ∧ (y ≠ x → k < n) := by
  rcases h with rfl | ⟨hk, w, rfl⟩
  · exact ⟨rfl, fun _ _ => rfl, fun h => absurd rfl h⟩
  · exact ⟨List.length_set, fun _ hj => List.getElem?_set_ne hj.symm, fun _ => hk⟩

/-! ### What a completed transaction can have done to the register file -/

/-- R126, R128: a completed WRITE stores at most the word `offset >> 2`, a word of the register file. -/
theorem exec_write_stores (hwf : s.cfg.wf = true) (hi : i = .write size offset v ∨ i = .writeC size offset v)
    (h : exec i s = .next t) :
    t.x = s.x ∨ offset.toNat / 4 < s.cfg.words ∧ ∃ w, t.x = s.x.set (offset.toNat / 4) w := by
  cases exec_next h with
  | answered _ ht => exact .inl (by simp [ht])
  | logged _ _ _ ht => exact .inl (by simp [ht])
  | wrote _ _ _ r hi' _ hb ht =>
    obtain rfl | rfl := hi <;> cases hi'
    rw [wordIndex_eq_div] at hb ht
    exact .inr ⟨hb, _, by rw [ht]; rfl⟩
  | wroteC _ _ _ hi' hc hw ht =>
    obtain rfl | rfl := hi <;> cases hi'
    rw [wordIndex_eq_div] at ht
    exact .inr ⟨baseline_word_lt hc hwf hw, _, by rw [ht]; rfl⟩
  | loaded _ _ hl => obtain rfl | rfl := hi <;> simp [Instr.isReset, Instr.isRestore] at hl

/-- What changes a register: WRITE, WRITE.C, RESET or RESTORE. -/
theorem exec_changes_registers (h : exec i s = .next t) (hx : t.x ≠ s.x) :
    (∃ size offset v, i = .write size offset v) ∨ (∃ size offset v, i = .writeC size offset v)
      ∨ i.isReset = true ∨ i.isRestore = true := by
  cases exec_next h with
  | answered _ ht => exact absurd (by simp [ht]) hx
  | logged _ _ _ ht => exact absurd (by simp [ht]) hx
  | wrote size offset v _ hi => exact .inl ⟨size, offset, v, hi⟩
  | wroteC size offset v hi => exact .inr (.inl ⟨size, offset, v, hi⟩)
  | loaded _ _ hl => exact .inr (.inr hl)

/-- R123, R126, R127: READ and WRITE.OOR leave the register file as it was. -/
theorem exec_keeps_registers (hi : i.isRead = true ∨ ∃ offset v, i = .writeOor offset v) (h : exec i s = .next t) :
    t.x = s.x := by
  by_contra hx
  obtain ⟨_, _, _, rfl⟩ | ⟨_, _, _, rfl⟩ | hl := exec_changes_registers h hx
  · simp [Instr.isRead] at hi
  · simp [Instr.isRead] at hi
  · obtain hi | ⟨_, _, rfl⟩ := hi
    · cases i <;> simp [Instr.isRead, Instr.isReset, Instr.isRestore] at hi hl
    · simp [Instr.isReset, Instr.isRestore] at hl

/-! ### The transactions of the baseline -/

/-- R129: the baseline's configuration allows no event. -/
theorem diagAllowed_baseline (hc : c.ctl = .c) (e : Diag) : diagAllowed c e = false := by
  cases e <;> simp [diagAllowed, hc, Controller.richer]

/-- The baseline's only RESET row, and the words it loads (R223). -/
theorem exec_reset_baseline (hc : s.cfg.ctl = .c) (hi : i.isReset = true) (h : exec i s = .next t) :
    i = .resetC ∧ t.x = resetImage s.cfg := by
  cases i <;> simp [Instr.isReset] at hi
  case resetA =>
    obtain ⟨_, _, _, ha, -⟩ := whenA_next h
    simp [hc] at ha
  case resetB =>
    obtain ⟨_, _, hb, -⟩ := whenB_next h
    simp [hc] at hb
  case resetC =>
    obtain ⟨-, h⟩ := whenC_next h
    cases h
    exact ⟨rfl, by simp [resetImage, hc]⟩

/-- R131: RESTORE sets every word from the image, or none. -/
theorem exec_restore_x {version : Nat} {image : List Word} (h : exec (.restore version image) s = .next t) :
    t.x = image ∨ t.x = s.x := by
  simp only [exec, execRestore] at h
  split at h
  · cases h
    exact .inl rfl
  · cases h
    exact .inr rfl

/-- R129: no transaction of the baseline raises a diagnostic. -/
theorem exec_baseline_diags (hc : s.cfg.ctl = .c) (hwf : s.cfg.wf = true) (h : exec i s = .next t) :
    t.diags = s.diags := by
  cases exec_next h with
  | answered _ ht => simp [ht]
  | logged e _ allowed => exact absurd (allowed hwf) (by simp [diagAllowed_baseline hc e])
  | wrote _ _ _ _ _ _ _ ht => simp [ht]
  | wroteC _ _ _ _ _ _ ht => simp [ht]
  | loaded _ _ _ _ ht => simp [ht]

/-- A word of the baseline changes only to the value written, reset or restored into it (R128, R129). -/
theorem exec_baseline_word (hc : s.cfg.ctl = .c) (h : exec i s = .next t) {j : Nat} (hj : t.x[j]? ≠ s.x[j]?) :
    (∃ size offset v, i = .writeC size offset v ∧ offset.toNat / 4 = j ∧ t.x[j]? = some v)
      ∨ (i = .resetC ∧ t.x[j]? = (resetImage s.cfg)[j]?)
      ∨ ∃ version image, i = .restore version image ∧ t.x[j]? = image[j]? := by
  cases exec_next h with
  | answered _ ht => exact absurd (by simp [ht]) hj
  | logged _ _ _ ht => exact absurd (by simp [ht]) hj
  | wrote _ _ _ _ _ hr => simp [hc, Controller.richer] at hr
  | wroteC size offset v hi _ _ ht =>
    have hx : t.x = s.x.set (offset.toNat / 4) v := by rw [ht, wordIndex_eq_div]; rfl
    have hk : offset.toNat / 4 = j := by
      by_contra hne
      exact hj (by rw [hx, List.getElem?_set_ne hne])
    have hlt : j < s.x.length := by
      by_contra hge
      exact hj (by rw [hx, List.set_eq_of_length_le (by omega)])
    exact .inl ⟨size, offset, v, hi, hk, by simp [hx, hk, hlt]⟩
  | loaded _ _ hl =>
    obtain hl | hl := hl
    · obtain ⟨hi, hx⟩ := exec_reset_baseline hc hl h
      exact .inr (.inl ⟨hi, by rw [hx]⟩)
    · cases i <;> simp [Instr.isRestore] at hl
      case restore version image =>
        obtain hx | hx := exec_restore_x h
        · exact .inr (.inr ⟨version, image, rfl, by rw [hx]⟩)
        · exact absurd (by rw [hx]) hj

/-! ### The statements -/

/-- Settles O17: the four outcomes of READ, each by its equation. -/
theorem readReturnsTheWord : Obligations.ReadReturnsTheWord := by
  intro s r size offset hr ⟨hwf, hx, _⟩
  obtain ⟨hwin, -, -⟩ := richer_window hr hwf
  refine ⟨exec_read_not_ready hr, fun hd h => exec_read_undeliverable hr hd (deliverable_eq_false_iff.mpr h),
    fun hd hsz hal hlt => ?inBounds, fun hd hsz hal hge hlt => ?outOfRange⟩
  case inBounds =>
    have hdel := deliverable_iff.mpr ⟨hsz, hal, hlt.trans_le hwin⟩
    have hin := inBounds_iff.mpr hlt
    have hlen : s.x.length = s.cfg.words := hx hd
    rw [exec_read_in_bounds hr hd hdel hin]
    exact ⟨by simp [decode_read_record hr, hin], readWord_answers_word (by omega)⟩
  case outOfRange =>
    have hdel := deliverable_iff.mpr ⟨hsz, hal, hlt⟩
    have hout := inBounds_eq_false_iff.mpr hge
    rw [exec_read_out_of_range hr hd hdel hout, exec_readOor_eq hr hd (hsz ▸ hdel) hout]

/-- Settles O18: the record selects READ.OOR, whose meaning raises the one event. -/
theorem outOfRangeReadReturnsZeroAndLogs : Obligations.OutOfRangeReadReturnsZeroAndLogs := by
  intro s r offset hr hd hal hge hlt
  have hdel := deliverable_iff.mpr ⟨rfl, hal, hlt⟩
  have hout := inBounds_eq_false_iff.mpr hge
  exact ⟨by simp [decode_read_record hr, hdel, hout],
    (exec_readOor_eq hr hd hdel hout).trans (raiseDiag_eq _ _ _)⟩

/-- Settles O20: the record selects WRITE.OOR, whose meaning raises the one event. -/
theorem outOfRangeWriteOnlyLogs : Obligations.OutOfRangeWriteOnlyLogs := by
  intro s r offset v hr hd hal hge hlt
  have hdel := deliverable_iff.mpr ⟨rfl, hal, hlt⟩
  have hout := inBounds_eq_false_iff.mpr hge
  exact ⟨by simp [decode_write_record hr, hdel, hout],
    (exec_writeOor_eq hr hd hdel hout).trans (raiseDiag_eq _ _ _)⟩

/-- Settles O22: under `Ignored` the word stored is the word that stood there. -/
theorem ignoredWordKeepsItsValue : Obligations.IgnoredWordKeepsItsValue := by
  intro s r i v hr ⟨hwf, _, _⟩ hd hmem
  have hi : i < s.cfg.words := (policies_wf hr hwf).2 _ hmem
  rw [exec_write_word hr hwf hd hi, policyAt_declared hr hwf hmem, applyPolicy_ignored, set_wordAt_self]

/-- Settles O23: a WRITE is one `List.set` at most, the other accesses none. -/
theorem accessesTouchAtMostOneWord : Obligations.AccessesTouchAtMostOneWord := by
  intro s t size offset v ⟨hwf, _, _⟩
  refine ⟨fun h => frame_of_set ?write, fun h => ?others⟩
  case write =>
    obtain h | h := h
    · exact exec_write_stores hwf (.inl rfl) h
    · exact exec_write_stores hwf (.inr rfl) h
  case others =>
    obtain h | h | h | h := h
    · exact exec_keeps_registers (.inr ⟨_, _, rfl⟩) h
    · exact exec_keeps_registers (.inl rfl) h
    · exact exec_keeps_registers (.inl rfl) h
    · exact exec_keeps_registers (.inl rfl) h

/-- Settles O25: the window holds exactly the words, and no baseline row consults a mask or raises an event. -/
theorem baselineIsPlainStorage : Obligations.BaselineIsPlainStorage := by
  intro s hc ⟨hwf, hx, _⟩ hd
  have hlt (offset : Word) (hw : offset.toNat < s.cfg.window) : offset.toNat / 4 < s.x.length :=
    (baseline_word_lt hc hwf hw).trans_eq (hx hd).symm
  refine ⟨fun size offset hw => ?read, fun size offset v hw => ⟨hlt offset hw, exec_writeC_eq hc hd hw⟩,
    fun i t h => ⟨exec_baseline_diags hc hwf h, fun j => exec_baseline_word hc h⟩⟩
  case read =>
    rw [exec_readC_eq hc hd hw]
    exact readWord_answers_word (hlt offset hw)

end Sys2Proof.Machine
end

section
/-! PROOFS. QUERY of the clocks of both chains (spec/42_clock_query.md R151 to R156, R158, R170 to R174, R177): the row a
QUERY byte selects, what the named words, fields and clocks are worth, and the statements of the family. Each answer is
the variant's guard (`whenA_a`, `whenB_b`) followed by the law of `answerQuery`. -/

namespace Sys2Proof.Machine

variable {c : Config} {s : State} {r : Richer} {i : Nat}

/-! ### The row a QUERY byte selects -/

/-- R71, R78: the byte of OP 0x3 and a ClockId selects the variant's row of that ClockId. -/
theorem selects_queryRow (c : Config) (clk : ClockId) : selects c (0x3#4 ++ clk) (queryRow c.ctl.variant clk) := by
  intro q version image hq
  have hop : opOf q.cmd = 3#4 := hq ▸ opOf_cmdByte 0x3#4 clk
  have harg : argOf q.cmd = clk := hq ▸ argOf_cmdByte 0x3#4 clk
  rw [decode_query_record c hop, harg]

theorem selects_queryRowA {f : FieldsA} {o : Override} (hc : c.ctl = .a r f o) (clk : ClockId) :
    selects c (0x3#4 ++ clk) (queryRowA clk) := by
  have h := selects_queryRow c clk
  rwa [hc] at h

theorem selects_queryRowB {f : FieldsB} (hc : c.ctl = .b r f) (clk : ClockId) :
    selects c (0x3#4 ++ clk) (queryRowB clk) := by
  have h := selects_queryRow c clk
  rwa [hc] at h

/-! ### Words, fields and clocks of the register file -/

/-- Once ready, a word of the configuration stands in the register file. -/
theorem ready_word (hi : s.Inv) (hd : s.ready = true) (h : i < s.cfg.words) : s.x[i]? = some (wordAt s.x i) := by
  obtain ⟨-, hx, -⟩ := hi
  exact wordAt_of_lt (h.trans_eq (hx hd).symm)

/-- R13: a field's value as a quotient and a remainder of its word. -/
theorem fieldAt_eq_div (x : List Word) (p : FieldPos) :
    fieldAt x p = (wordAt x p.idx).toNat / 2 ^ p.lo % 2 ^ p.width := by
  rw [fieldAt, bits, Nat.shiftRight_eq_div_pow]

/-- R84: a clock divided by a divider field is divided by one more than the field. -/
theorem divU_divisorAt_toNat (a : Word) (x : List Word) (p : FieldPos) :
    (divU a (divisorAt x p)).toNat = a.toNat / (1 + (wordAt x p.idx).toNat / 2 ^ p.lo % 2 ^ p.width) := by
  rw [divU_toNat, divisorAt, fieldAt_eq_div]

/-- R171 in numbers: the low-frequency reference is a product modulo 2^32 (D3), the other one the crystal. -/
theorem refclkB_toNat (r : Richer) (f : FieldsB) (x : List Word) :
    (refclkB r f x).toNat =
      if fieldAt x f.refsel = f.refselLfCode then r.ckil.toNat * 1024 % 2 ^ 32 else r.xtal.toNat := by
  unfold refclkB
  split
  · exact BitVec.toNat_mul _ _
  · rfl

/-- R172: the reference passes when bypassed or with the PLL not enabled. -/
theorem mcuB_eq (r : Richer) (f : FieldsB) (x : List Word) :
    mcuB r f x =
      if isSet x f.bypassMode = true ∨ isSet x f.pllEnable = false then refclkB r f x
      else pll r.layout (wordAt x f.mpllWord) (refclkB r f x) := by
  simp [mcuB]

/-! ### The statements -/

/-- Settles O34: `mpllA` of the words that stand in the register file. -/
theorem mpllIsCrystalOrPll : Obligations.MpllIsCrystalOrPll := by
  intro s r f o hc hi hd hs
  have ⟨hwf, _⟩ := hi
  obtain ⟨hword, -, hbypass, -⟩ := fieldsA_in_words hc hwf
  exact ⟨selects_queryRowA hc 1#4, _, _, ready_word hi hd hword, ready_word hi hd hbypass,
    (whenA_a hc).trans (answerQuery_supported hd hs)⟩

/-- Settles O35: `upllA` reads the UPLL word only. -/
theorem upllIsNeverBypassed : Obligations.UpllIsNeverBypassed := by
  intro s r f o hc hi hd hs
  have ⟨hwf, _⟩ := hi
  obtain ⟨-, hword, -⟩ := fieldsA_in_words hc hwf
  exact ⟨selects_queryRowA hc 2#4, _, ready_word hi hd hword, (whenA_a hc).trans (answerQuery_supported hd hs)⟩

/-- Settles O37: both quotients are exact natural-number divisions of the clock above. -/
theorem ahbAndIpgDivideTheMcuClock : Obligations.AhbAndIpgDivideTheMcuClock := by
  intro s r f o hc hi hd
  have ⟨hwf, _⟩ := hi
  obtain ⟨-, -, -, -, -, hdiv⟩ := fieldsA_in_words hc hwf
  exact ⟨selects_queryRowA hc 4#4, selects_queryRowA hc 5#4, _, ahbA r f s.x, ipgA r f s.x, ready_word hi hd hdiv,
    divU_divisorAt_toNat _ _ _, divU_toNat _ _, fun hs => (whenA_a hc).trans (answerQuery_supported hd hs),
    fun hs => (whenA_a hc).trans (answerQuery_supported hd hs)⟩

/-- Settles O40: the reference is `refclkB`, whose value `refclkB_toNat` gives. -/
theorem mcuBIsReferenceOrPll : Obligations.McuBIsReferenceOrPll := by
  intro s r f hc hi hd
  have ⟨hwf, _⟩ := hi
  obtain ⟨hword, hsel, hbyp, hen, -⟩ := fieldsB_in_words hc hwf
  refine ⟨selects_queryRowB hc 3#4, _, _, _, _, refclkB r f s.x, ready_word hi hd hword, ready_word hi hd hsel,
    ready_word hi hd hbyp, ready_word hi hd hen, ?reference, mcuB_eq r f s.x,
    fun hs => (whenB_b hc).trans (answerQuery_supported hd hs)⟩
  case reference => rw [refclkB_toNat, fieldAt_eq_div]

/-- Settles O41: both quotients are exact natural-number divisions of the clock above, each by its own field. -/
theorem hspAndIpgDivideTheMcuClock : Obligations.HspAndIpgDivideTheMcuClock := by
  intro s r f hc hi hd
  have ⟨hwf, _⟩ := hi
  obtain ⟨-, -, -, -, hhsp, hipg⟩ := fieldsB_in_words hc hwf
  exact ⟨selects_queryRowB hc 4#4, selects_queryRowB hc 5#4, _, _, hspB r f s.x, ipgB r f s.x,
    ready_word hi hd hhsp, ready_word hi hd hipg, divU_divisorAt_toNat _ _ _, divU_divisorAt_toNat _ _ _,
    fun hs => (whenB_b hc).trans (answerQuery_supported hd hs),
    fun hs => (whenB_b hc).trans (answerQuery_supported hd hs)⟩

/-- Settles O33: NOCLK's row passes the `ready` check only, never the supported set. -/
theorem noClockIsZero : Obligations.NoClockIsZero :=
  ⟨fun _ _ _ _ hc hd => ⟨selects_queryRowA hc 0#4, (whenA_a hc).trans (whenReady_ready hd)⟩,
    fun _ _ _ hc hd => ⟨selects_queryRowB hc 0#4, (whenB_b hc).trans (whenReady_ready hd)⟩⟩

/-- Settles O43: from ClockId 7 on, the selected row only raises its diagnostic. -/
theorem unrecognisedClockIsZeroAndLogs : Obligations.UnrecognisedClockIsZeroAndLogs := by
  refine ⟨fun s r f o clk hc hd h7 => ⟨?rowA, ?answerA⟩, fun s r f clk hc hd h7 => ⟨?rowB, ?answerB⟩⟩
  case rowA => exact queryRowA_unrecognised h7 ▸ selects_queryRowA hc clk
  case answerA => rw [exec_qAUnrecognised hc h7, whenReady_ready hd, unsupportedQuery_eq]
  case rowB => exact queryRowB_unrecognised h7 ▸ selects_queryRowB hc clk
  case answerB => rw [exec_qBUnrecognised hc h7, whenReady_ready hd, unsupportedQuery_eq]

end Sys2Proof.Machine
end

section
/-! PROOFS. Which transactions complete (spec/60_exceptions.md R193, R195, R206): a row that needs a reset is its
`ready` check and then its delivery check, RESET, RESTORE and PLLW answer at once, and the host's duties are exactly the
checks that pass. -/

namespace Sys2Proof.Machine

variable {c : Config} {s : State} {i : Instr} {clk : ClockId}

/-! ### The parameters that a selected row finds -/

theorem ctl_of_variant_A (h : (c.ctl.variant == .A) = true) : ∃ r f o, c.ctl = .a r f o := by
  cases hc : c.ctl with
  | a r f o => exact ⟨r, f, o, rfl⟩
  | b r f => simp [hc, Controller.variant] at h
  | c => simp [hc, Controller.variant] at h

theorem ctl_of_variant_B (h : (c.ctl.variant == .B) = true) : ∃ r f, c.ctl = .b r f := by
  cases hc : c.ctl with
  | a r f o => simp [hc, Controller.variant] at h
  | b r f => exact ⟨r, f, rfl⟩
  | c => simp [hc, Controller.variant] at h

theorem ctl_of_variant_C (h : (c.ctl.variant == .C) = true) : c.ctl = .c := by
  cases hc : c.ctl with
  | a r f o => simp [hc, Controller.variant] at h
  | b r f => simp [hc, Controller.variant] at h
  | c => rfl

theorem richer_of_variant_ne_C (h : (c.ctl.variant != .C) = true) : ∃ r, c.ctl.richer = some r := by
  cases hc : c.ctl with
  | a r f o => exact ⟨r, rfl⟩
  | b r f => exact ⟨r, rfl⟩
  | c => simp [hc, Controller.variant] at h

/-! ### QUERY: the `ready` check is the only one -/

theorem answerQuery_eq_whenReady (s : State) (r : Richer) (clk : ClockId) (v : Word) :
    ∃ t, answerQuery s r clk v = whenReady s (.next t) := by
  cases hs : supports r clk
  · exact ⟨_, congrArg (whenReady s) (if_neg (by simp [hs]))⟩
  · exact ⟨_, congrArg (whenReady s) (if_pos hs)⟩

theorem whenA_answerQuery {k : Richer → FieldsA → Word} (hv : (s.cfg.ctl.variant == .A) = true) :
    ∃ t, (whenA s fun r f _ => answerQuery s r clk (k r f)) = whenReady s (.next t) := by
  obtain ⟨r, f, o, hc⟩ := ctl_of_variant_A hv
  rw [whenA_a hc]
  exact answerQuery_eq_whenReady s r clk (k r f)

theorem whenB_answerQuery {k : Richer → FieldsB → Word} (hv : (s.cfg.ctl.variant == .B) = true) :
    ∃ t, (whenB s fun r f => answerQuery s r clk (k r f)) = whenReady s (.next t) := by
  obtain ⟨r, f, hc⟩ := ctl_of_variant_B hv
  rw [whenB_b hc]
  exact answerQuery_eq_whenReady s r clk (k r f)

theorem exec_query_eq_whenReady (hw : i.wf s.cfg = true) (hq : i.isQuery = true) :
    ∃ t, exec i s = whenReady s (.next t) := by
  cases i <;> simp only [Instr.isQuery, Bool.false_eq_true] at hq
  case qAMpll | qAUpll | qAMcu | qAAhb | qAIpg => exact whenA_answerQuery hw
  case qA32k => exact whenA_answerQuery (k := fun r _ => r.ckil) hw
  case qANoclk =>
    obtain ⟨_, _, _, hc⟩ := ctl_of_variant_A hw
    exact ⟨_, whenA_a hc⟩
  case qAUnrecognised clk =>
    simp only [Instr.wf, Bool.and_eq_true, decide_eq_true_eq] at hw
    obtain ⟨hv, h7⟩ := hw
    obtain ⟨_, _, _, hc⟩ := ctl_of_variant_A hv
    exact ⟨_, exec_qAUnrecognised hc h7⟩
  case qBMcu | qBHsp | qBIpg => exact whenB_answerQuery hw
  case qB32k => exact whenB_answerQuery (k := fun r _ => r.ckil) hw
  case qBNoclk | qBMpllUnsupported | qBUpllUnsupported =>
    obtain ⟨_, _, hc⟩ := ctl_of_variant_B hw
    exact ⟨_, whenB_b hc⟩
  case qBUnrecognised clk =>
    simp only [Instr.wf, Bool.and_eq_true, decide_eq_true_eq] at hw
    obtain ⟨hv, h7⟩ := hw
    obtain ⟨_, _, hc⟩ := ctl_of_variant_B hv
    exact ⟨_, exec_qBUnrecognised hc h7⟩

/-! ### READ and WRITE: the `ready` check, then the delivery check -/

/-- The outcome of an access that passes both checks is a state, so the checks alone decide. -/
theorem delivered_eq_checked (s : State) (d : Bool) {k : Out} (hk : ∃ t, k = .next t) :
    ∃ t, (whenReady s <| if d then k else .refused .undeliverableAccess) =
      whenReady s (if !d then .refused .undeliverableAccess else .next t) := by
  obtain ⟨t, rfl⟩ := hk
  exact ⟨t, by cases d <;> rfl⟩

/-- R120, R122: in and out of bounds an access completes. -/
theorem bounds_complete (b : Bool) (t t' : State) :
    ∃ u, (if b then (.next t : Out) else .next t') = .next u :=
  ⟨if b then t else t', by cases b <;> rfl⟩

theorem outOfRange_selected {offset : Word} (h : outOfRangeForm c 4#8 offset = true) :
    (deliverable c 4#8 offset && !inBounds c offset) = true := outOfRangeForm_eq c 4#8 offset ▸ h

theorem exec_access_eq_checked (hw : i.wf s.cfg = true) (ha : (i.isRead || i.isWrite) = true) :
    ∃ t, exec i s =
      whenReady s (if i.undeliverable s.cfg then .refused .undeliverableAccess else .next t) := by
  cases i <;> simp only [Instr.isRead, Instr.isWrite, Bool.or_self, Bool.false_eq_true] at ha
  case read | write =>
    obtain ⟨hv, -⟩ := Bool.and_eq_true_iff.mp hw
    obtain ⟨_, hr⟩ := richer_of_variant_ne_C hv
    simp only [exec, execRead, execWrite, whenRicher_some hr]
    exact delivered_eq_checked s _ (bounds_complete _ _ _)
  case readOor | writeOor =>
    obtain ⟨hv, hout⟩ := Bool.and_eq_true_iff.mp hw
    obtain ⟨_, hr⟩ := richer_of_variant_ne_C hv
    exact ⟨_, (whenRicher_some hr).trans (if_pos (outOfRange_selected hout))⟩
  case readC | writeC =>
    simp only [exec, execReadC, execWriteC, whenC_c (ctl_of_variant_C hw)]
    exact delivered_eq_checked s _ ⟨_, rfl⟩

/-! ### All rows -/

/-- R195: a row that needs a reset is its `ready` check, then its delivery check, then a completed transaction. -/
theorem exec_eq_checked (hw : i.wf s.cfg = true) (hn : i.needsReady = true) :
    ∃ t, exec i s =
      whenReady s (if i.undeliverable s.cfg then .refused .undeliverableAccess else .next t) := by
  simp only [Instr.needsReady, Bool.or_eq_true, beq_iff_eq] at hn
  obtain (ha | hq) | rfl := hn
  · exact exec_access_eq_checked hw (Bool.or_eq_true_iff.mpr ha)
  · have hu : i.undeliverable s.cfg = false := by cases i <;> simp [Instr.isQuery] at hq <;> rfl
    rw [hu]
    exact exec_query_eq_whenReady hw hq
  · exact ⟨_, rfl⟩

/-- RESET, RESTORE and PLLW answer in every state (R131, R224; log entry 12). -/
theorem exec_completes_unchecked (hw : i.wf s.cfg = true) (hres : i.isReserved = false) (hqc : i.isQueryC = false)
    (hn : i.needsReady = false) : ∃ t, exec i s = .next t := by
  cases i <;> simp [Instr.isReserved, Instr.isQueryC, Instr.needsReady, Instr.isRead, Instr.isWrite, Instr.isQuery]
    at hres hqc hn
  case resetA =>
    obtain ⟨_, _, _, hc⟩ := ctl_of_variant_A hw
    exact ⟨_, whenA_a hc⟩
  case resetB =>
    obtain ⟨_, _, hc⟩ := ctl_of_variant_B hw
    exact ⟨_, whenB_b hc⟩
  case resetC => exact ⟨_, whenC_c (ctl_of_variant_C hw)⟩
  case restore version image =>
    by_cases h : version = s.cfg.snapVersion ∧ image.length = s.cfg.words
    · exact ⟨_, if_pos h⟩
    · exact ⟨_, if_neg h⟩
  case pllw =>
    obtain ⟨_, hr⟩ := richer_of_variant_ne_C hw
    exact ⟨_, whenRicher_some hr⟩

theorem exec_reserved (h : i.isReserved = true) : exec i s = .refused .reservedCommand := by
  cases i <;> simp only [Instr.isReserved, Bool.false_eq_true] at h
  case reservedOp | reservedArg => rfl

theorem exec_queryC (hw : i.wf s.cfg = true) (h : i.isQueryC = true) : exec i s = .refused .noQueryCapability := by
  cases i <;> simp only [Instr.isQueryC, Bool.false_eq_true] at h
  case qCRefused => exact whenC_c (ctl_of_variant_C hw)

/-- Only READ and WRITE have a delivery check, and both need a reset. -/
theorem needsReady_of_undeliverable (h : i.undeliverable c = true) : i.needsReady = true := by
  cases i <;> simp only [Instr.undeliverable, Bool.false_eq_true] at h
  case read | write | readC | writeC => rfl

theorem hostDuty_iff :
    hostDuty s i = true ↔ i.isReserved = false ∧ i.isQueryC = false ∧ (i.needsReady = false ∨ s.ready = true)
      ∧ i.undeliverable s.cfg = false := by
  simp [hostDuty, and_assoc]

theorem exec_completes_of_hostDuty (hw : i.wf s.cfg = true) (hd : hostDuty s i = true) : ∃ t, exec i s = .next t := by
  obtain ⟨hres, hqc, hready, hdel⟩ := hostDuty_iff.mp hd
  cases hn : i.needsReady
  case false => exact exec_completes_unchecked hw hres hqc hn
  case true =>
    obtain ⟨t, ht⟩ := exec_eq_checked hw hn
    have hr : s.ready = true := hready.resolve_left (by simp [hn])
    exact ⟨t, by rw [ht, whenReady_ready hr, hdel]; rfl⟩

theorem exec_refused_of_not_hostDuty (hw : i.wf s.cfg = true) (hd : hostDuty s i = false) :
    ∃ reason, exec i s = .refused reason := by
  by_cases hres : i.isReserved = true
  · exact ⟨_, exec_reserved hres⟩
  by_cases hqc : i.isQueryC = true
  · exact ⟨_, exec_queryC hw hqc⟩
  have hdel : i.needsReady = false ∨ s.ready = true → i.undeliverable s.cfg = true := by
    simpa [hostDuty, hres, hqc] using hd
  have hn : i.needsReady = true := by
    by_contra h
    exact h (needsReady_of_undeliverable (hdel (.inl (Bool.eq_false_of_not_eq_true h))))
  obtain ⟨t, ht⟩ := exec_eq_checked hw hn
  cases hr : s.ready
  case false => exact ⟨_, ht.trans (whenReady_not_ready hr)⟩
  case true => exact ⟨_, by rw [ht, whenReady_ready hr, hdel (.inr hr)]; rfl⟩

/-- Settles O56: the host's duties are the checks of R195, and `Fault` has no constructor. -/
theorem deliveredTransactionsReturnTheirResult : Obligations.DeliveredTransactionsReturnTheirResult :=
  ⟨fun _ _ => exec_completes_of_hostDuty, fun _ _ => exec_refused_of_not_hostDuty, fun _ e => nomatch e⟩

end Sys2Proof.Machine
end

section
/-! PROOFS. What every step keeps (spec/10_state.md R23, R26, R28, R35, spec/60_exceptions.md R190, R196): each frame of
a completed instruction is read off its effect (`exec_next`), the machine's off the instruction's. -/

namespace Sys2Proof.Machine

variable {s t : State} {i : Instr} {r : Richer}

/-! ### The frame of an effect -/

theorem Effect.cfg_eq (h : Effect i s t) : t.cfg = s.cfg := by
  cases h with
  | answered _ ht => simp [ht]
  | logged _ _ _ ht => simp [ht]
  | wrote _ _ _ _ _ _ _ ht => simp [ht]
  | wroteC _ _ _ _ _ _ ht => simp [ht]
  | loaded _ _ _ _ ht => simp [ht]

theorem Effect.pending_eq (h : Effect i s t) : t.pending = s.pending := by
  cases h with
  | answered _ ht => simp [ht]
  | logged _ _ _ ht => simp [ht]
  | wrote _ _ _ _ _ _ _ ht => simp [ht]
  | wroteC _ _ _ _ _ _ ht => simp [ht]
  | loaded _ _ _ _ ht => simp [ht]

theorem Effect.diags_eq (h : Effect i s t) : t.diags = s.diags ∨ ∃ e, t.diags = s.diags ++ [e] := by
  cases h with
  | answered _ ht => simp [ht]
  | logged _ _ _ ht => simp [ht]
  | wrote _ _ _ _ _ _ _ ht => simp [ht]
  | wroteC _ _ _ _ _ _ ht => simp [ht]
  | loaded _ _ _ _ ht => simp [ht]

/-- R35: only RESET and RESTORE touch `ready`, and they set it. -/
theorem Effect.ready_eq (h : Effect i s t) :
    t.ready = s.ready ∨ t.ready = true ∧ (i.isReset = true ∨ i.isRestore = true) := by
  cases h with
  | answered _ ht => simp [ht]
  | logged _ _ _ ht => simp [ht]
  | wrote _ _ _ _ _ _ _ ht => simp [ht]
  | wroteC _ _ _ _ _ _ ht => simp [ht]
  | loaded _ _ hi _ ht => exact .inr ⟨by simp [ht], hi⟩

/-! ### The invariant -/

theorem exec_keeps_inv (hs : s.Inv) (h : exec i s = .next t) : t.Inv := by
  obtain ⟨hwf, hx, hd⟩ := hs
  cases exec_next h with
  | answered _ ht => exact ht ▸ ⟨hwf, hx, hd⟩
  | logged e _ allowed ht =>
    have hlog : ∀ e' ∈ s.diags ++ [e], diagAllowed s.cfg e' = true :=
      List.forall_mem_append.mpr ⟨hd, List.forall_mem_singleton.mpr (allowed hwf)⟩
    exact ht ▸ ⟨hwf, hx, hlog⟩
  | wrote _ _ _ _ _ _ _ ht => exact ht ▸ ⟨hwf, fun hr => memory_wf_set (hx hr) _ _, hd⟩
  | wroteC _ _ _ _ _ _ ht => exact ht ▸ ⟨hwf, fun hr => memory_wf_set (hx hr) _ _, hd⟩
  | loaded _ _ _ hl ht => exact ht ▸ ⟨hwf, fun _ => hl, hd⟩

theorem step_cons {q : Request} {rest : List Request} (h : s.pending = q :: rest) :
    step s = exec (decode s.cfg q) { s with pending := rest } := by
  simp [step, h]

theorem step_nil (h : s.pending = []) : step s = .next s := by simp [step, h]

/-- Settles O49: taking a request off the queue touches no part of the invariant, and `exec` keeps it. -/
theorem stepKeepsTheInvariant : Obligations.StepKeepsTheInvariant := by
  intro s t hs h
  cases hp : s.pending with
  | nil =>
    rw [step_nil hp] at h
    cases h
    exact hs
  | cons q rest =>
    rw [step_cons hp] at h
    exact exec_keeps_inv (s := { s with pending := rest }) hs h

/-- Settles O48: the two equations of `step`. -/
theorem stepRunsTheNextRequest : Obligations.StepRunsTheNextRequest :=
  ⟨fun _ _ _ => step_cons, fun _ => step_nil⟩

theorem refA_wf : refA.wf = true := by decide

theorem constructed_inv {c : Config} (hc : c.wf = true) : (State.constructed c).Inv :=
  ⟨hc, fun h => by simp [State.constructed] at h, by simp [State.constructed]⟩

theorem resetOf_inv {c : Config} (hc : c.wf = true) : (State.resetOf c).Inv :=
  ⟨hc, fun _ => memory_wf_resetImage c, by simp [State.resetOf]⟩

/-- Settles O50: the logs are empty, and the reset image has `N_v` words. -/
theorem invariantHoldsAtReset : Obligations.InvariantHoldsAtReset :=
  ⟨resetOf_inv refA_wf, rfl, fun _ hc => ⟨constructed_inv hc, resetOf_inv hc⟩⟩

/-- Settles O57: a refusing step leaves the session its `dropRequest` branch. -/
theorem refusedTransactionChangesNothing : Obligations.RefusedTransactionChangesNothing := by
  intro n s q rest reason hp hstep
  have hdrop : s.dropRequest = { s with pending := rest } := by simp [State.dropRequest, hp]
  simp [session, hstep, hdrop]

/-! ### Frames of every instruction -/

/-- Settles O52: the frame of the five effects. -/
theorem logOnlyGrowsAndReadyStays : Obligations.LogOnlyGrowsAndReadyStays := by
  intro i s t h
  have he := exec_next h
  refine ⟨he.diags_eq, he.cfg_eq, he.pending_eq, fun hs => ?stays, fun hne => ?setBy⟩
  case stays =>
    obtain heq | ⟨ht, -⟩ := he.ready_eq
    · exact heq.trans hs
    · exact ht
  case setBy =>
    obtain heq | ⟨-, hi⟩ := he.ready_eq
    · exact absurd heq hne
    · exact hi

/-- Settles O53: `exec_changes_registers` names the instructions. -/
theorem onlyThreeTransactionsChangeRegisters : Obligations.OnlyThreeTransactionsChangeRegisters := by
  intro i s t h hx
  obtain ⟨_, _, _, rfl⟩ | ⟨_, _, _, rfl⟩ | hl := exec_changes_registers h hx
  · exact .inl rfl
  · exact .inl rfl
  · exact .inr hl

/-- On a richer variant, an instruction but RESET and RESTORE stores at most one word, under that word's policy. -/
theorem exec_stores_under_policy (hr : s.cfg.ctl.richer = some r) (hres : i.isReset = false)
    (hrst : i.isRestore = false) (h : exec i s = .next t) :
    t.x = s.x ∨ ∃ k v, t.x = s.x.set k (applyPolicy (policyAt r k) (wordAt s.x k) v) := by
  cases exec_next h with
  | answered _ ht => exact .inl (by simp [ht])
  | logged _ _ _ ht => exact .inl (by simp [ht])
  | wrote _ _ v r' _ hr' _ ht =>
    obtain rfl : r' = r := Option.some.inj (hr'.symm.trans hr)
    exact .inr ⟨_, v, by rw [ht]; rfl⟩
  | wroteC _ _ _ _ hc => simp [hc, Controller.richer] at hr
  | loaded _ _ hl => simp [hres, hrst] at hl

/-- R28: under `Masked(W, F)` a bit outside W, or in F, keeps its value or is forced to 1. -/
theorem applyPolicy_masked_readOnly_bit (m f old v : Word) {k : Nat}
    (hk : m.getLsbD k = false ∨ f.getLsbD k = true) :
    (applyPolicy (.masked m f) old v).getLsbD k = old.getLsbD k
      ∨ f.getLsbD k = true ∧ (applyPolicy (.masked m f) old v).getLsbD k = true := by
  cases hf : f.getLsbD k with
  | true => exact .inr ⟨rfl, by simp [applyPolicy, hf]⟩
  | false =>
    have hm : m.getLsbD k = false := by simpa [hf] using hk
    refine .inl ?_
    have hlt (h : old.getLsbD k = true) : k < 32 := BitVec.lt_of_getLsbD h
    simpa [applyPolicy, hf, hm] using hlt

/-- A store into the register file, at the stored word: its value, or past the end no change. -/
theorem wordAt_set_cases (x : List Word) (k : Nat) (v : Word) :
    wordAt (x.set k v) k = v ∨ wordAt (x.set k v) k = wordAt x k := by
  by_cases hk : k < x.length
  · exact .inl (wordAt_set_same v hk)
  · exact .inr (by rw [List.set_eq_of_length_le (by omega)])

/-- Settles O54: at most one word is stored, and its policy keeps the read-only bits. -/
theorem readOnlyBitsSurviveEveryTransaction : Obligations.ReadOnlyBitsSurviveEveryTransaction := by
  intro i s t r hr ⟨hwf, _, _⟩ hres hrst h
  obtain hx | ⟨k, v, hx⟩ := exec_stores_under_policy hr hres hrst h
  · rw [hx]
    exact ⟨fun _ _ => rfl, fun _ _ _ _ _ _ => .inl rfl⟩
  rw [hx]
  refine ⟨fun j hj => ?ignored, fun j m f b hj hb => ?masked⟩
  case ignored =>
    by_cases hk : k = j
    · rw [hk, policyAt_declared hr hwf hj, applyPolicy_ignored, set_wordAt_self]
    · exact List.getElem?_set_ne hk
  case masked =>
    by_cases hk : k = j
    · rw [hk, policyAt_declared hr hwf hj]
      obtain hw | hw := wordAt_set_cases s.x j (applyPolicy (.masked m f) (wordAt s.x j) v)
      · rw [hw]
        exact applyPolicy_masked_readOnly_bit m f _ v hb
      · exact .inl (by rw [hw])
    · exact .inl (by rw [wordAt_set_other _ (Ne.symm hk)])

end Sys2Proof.Machine
end

section
/-! PROOFS. The order of the checks (spec/60_exceptions.md R195, R196): what `refusalOf` names is what `exec` refuses
with, and where it names nothing the host has kept its duties. -/

namespace Sys2Proof.Machine

variable {s : State} {i : Instr} {reason : Refusal}

theorem ite_some_eq_none_iff {p : Prop} [Decidable p] {o : Option Refusal} :
    (if p then some reason else o) = none ↔ ¬ p ∧ o = none := by
  split
  next h => simp [h]
  next h => simp [h]

/-- The host's duties are that no check of R195 applies. -/
theorem refusalOf_eq_none_iff_hostDuty : refusalOf s i = none ↔ hostDuty s i = true := by
  simp [refusalOf, ite_some_eq_none_iff, hostDuty_iff, imp_iff_not_or]

theorem exec_completes_of_refusalOf (hw : i.wf s.cfg = true) (h : refusalOf s i = none) : ∃ t, exec i s = .next t :=
  exec_completes_of_hostDuty hw (refusalOf_eq_none_iff_hostDuty.mp h)

theorem exec_refused_of_refusalOf (hw : i.wf s.cfg = true) (h : refusalOf s i = some reason) :
    exec i s = .refused reason := by
  unfold refusalOf at h
  split at h
  next hres => cases h; exact exec_reserved hres
  split at h
  next hqc => cases h; exact exec_queryC hw hqc
  split at h
  next hnr =>
    cases h
    obtain ⟨hn, hr⟩ : i.needsReady = true ∧ s.ready = false := by simpa using hnr
    obtain ⟨t, ht⟩ := exec_eq_checked hw hn
    exact ht.trans (whenReady_not_ready hr)
  next hnr =>
    split at h
    next hu =>
      cases h
      have hn : i.needsReady = true := needsReady_of_undeliverable hu
      have hr : s.ready = true := by simpa [hn] using hnr
      obtain ⟨t, ht⟩ := exec_eq_checked hw hn
      rw [ht, whenReady_ready hr, if_pos hu]
    next => cases h

theorem exec_refused_iff (hw : i.wf s.cfg = true) : exec i s = .refused reason ↔ refusalOf s i = some reason := by
  refine ⟨fun h => ?_, exec_refused_of_refusalOf hw⟩
  cases hr : refusalOf s i with
  | none =>
    obtain ⟨t, ht⟩ := exec_completes_of_refusalOf hw hr
    cases ht.symm.trans h
  | some reason' =>
    cases (exec_refused_of_refusalOf hw hr).symm.trans h
    rfl

theorem exec_completes_iff (hw : i.wf s.cfg = true) : refusalOf s i = none ↔ ∃ t, exec i s = .next t := by
  refine ⟨exec_completes_of_refusalOf hw, fun ⟨t, ht⟩ => ?_⟩
  cases hr : refusalOf s i with
  | none => rfl
  | some reason => cases (exec_refused_of_refusalOf hw hr).symm.trans ht

/-- Settles O55: `refusalOf` decides both ways. -/
theorem refusalsFollowTheOrderOfChecks : Obligations.RefusalsFollowTheOrderOfChecks :=
  fun _ _ hw => ⟨fun _ => exec_refused_iff hw, exec_completes_iff hw⟩

/-- The check for a reserved command comes first, and no other check refuses with its reason. -/
theorem exec_refused_reservedCommand_iff (hw : i.wf s.cfg = true) :
    exec i s = .refused .reservedCommand ↔ i.isReserved = true := by
  rw [exec_refused_iff hw]
  unfold refusalOf
  split_ifs with hres <;> simp [hres]

end Sys2Proof.Machine
end

section
/-! PROOFS. The record encoding (spec/30_encoding.md R71 to R74, R86, R88, R90): what a record can decode to, said once
(`rowOfRecord`), what the encoder writes for each row, and the statements of the family. -/

namespace Sys2Proof.Machine

variable {c : Config} {s : State} {r : Record} {i : Instr} {clk : ClockId} {version : Nat} {image : List Word}

/-! ### What a record decodes to -/

theorem cmdByte_opOf_argOf (cmd : Byte) : cmdByte (opOf cmd) (argOf cmd) = cmd :=
  (BitVec.extractLsb'_append_extractLsb'_eq_extractLsb' (by omega)).trans (by simp)

/-- The row a record selects, by its command byte (R72, R86). -/
inductive RowOfRecord (c : Config) (r : Record) (version : Nat) (image : List Word) : Prop where
  | reservedOp (hcmd : 0x60 ≤ r.cmd.toNat) (hi : decodeRecord c r version image = .reservedOp r.cmd)
  | reservedArg (hcmd : r.cmd.toNat < 0x60 ∧ r.cmd.toNat / 16 ≠ 3 ∧ r.cmd.toNat % 16 ≠ 0)
      (hi : decodeRecord c r version image = .reservedArg r.cmd)
  | read (hcmd : r.cmd = 0x00#8) (hi : decodeRecord c r version image = readRow c r)
  | write (hcmd : r.cmd = 0x10#8) (hi : decodeRecord c r version image = writeRow c r)
  | reset (hcmd : r.cmd = 0x20#8) (hi : decodeRecord c r version image = resetRow c.ctl.variant)
  | query (hcmd : opOf r.cmd = 3#4) (hi : decodeRecord c r version image = queryRow c.ctl.variant (argOf r.cmd))
  | save (hcmd : r.cmd = 0x40#8) (hi : decodeRecord c r version image = .save)
  | restore (hcmd : r.cmd = 0x50#8) (hi : decodeRecord c r version image = .restore version image)

theorem decodeRecord_reservedOp (h : 0x60 ≤ r.cmd.toNat) : decodeRecord c r version image = .reservedOp r.cmd :=
  if_pos (by rw [opOf_toNat]; omega)

theorem decodeRecord_reservedArg (h : r.cmd.toNat < 0x60 ∧ r.cmd.toNat / 16 ≠ 3 ∧ r.cmd.toNat % 16 ≠ 0) :
    decodeRecord c r version image = .reservedArg r.cmd := by
  obtain ⟨hlt, hop, harg⟩ := h
  have hop' : opOf r.cmd ≠ 3#4 := fun e => hop (by rw [← opOf_toNat, e]; rfl)
  have harg' : argOf r.cmd ≠ 0#4 := fun e => harg (by rw [← argOf_toNat, e]; rfl)
  exact (if_neg (by rw [opOf_toNat]; omega)).trans (if_pos ⟨hop', harg'⟩)

/-- Bytes with OP below 0x6 and ARG 0: one of the six commands. -/
theorem command_cases {cmd : Byte} (hlt : cmd.toNat < 0x60) (harg : cmd.toNat % 16 = 0) :
    cmd = 0x00#8 ∨ cmd = 0x10#8 ∨ cmd = 0x20#8 ∨ cmd = 0x30#8 ∨ cmd = 0x40#8 ∨ cmd = 0x50#8 := by
  simp only [← BitVec.toNat_inj, BitVec.toNat_ofNat]
  omega

theorem rowOfRecord (c : Config) (r : Record) (version : Nat) (image : List Word) :
    RowOfRecord c r version image := by
  by_cases hop : 0x60 ≤ r.cmd.toNat
  · exact .reservedOp hop (decodeRecord_reservedOp hop)
  by_cases hq : r.cmd.toNat / 16 = 3
  · have h3 : opOf r.cmd = 3#4 := BitVec.eq_of_toNat_eq ((opOf_toNat r.cmd).trans hq)
    exact .query h3 (decode_query_record c h3 version image)
  by_cases harg : r.cmd.toNat % 16 = 0
  · obtain h | h | h | h | h | h := command_cases (by omega) harg
    · exact .read h (by simp [decodeRecord, opOf, argOf, h])
    · exact .write h (by simp [decodeRecord, opOf, argOf, h])
    · exact .reset h (by simp [decodeRecord, opOf, argOf, h])
    · exact absurd (by rw [h]; rfl) hq
    · exact .save h (by simp [decodeRecord, opOf, argOf, h])
    · exact .restore h (by simp [decodeRecord, opOf, argOf, h])
  · have hcmd : r.cmd.toNat < 0x60 ∧ r.cmd.toNat / 16 ≠ 3 ∧ r.cmd.toNat % 16 ≠ 0 := ⟨by omega, hq, harg⟩
    exact .reservedArg hcmd (decodeRecord_reservedArg hcmd)

/-! ### The rows -/

theorem variant_eq_C_iff : c.ctl.variant = .C ↔ c.ctl = .c := by
  cases c.ctl <;> simp [Controller.variant]

theorem readRow_richer (hv : c.ctl.variant ≠ .C) (r : Record) :
    readRow c r = if outOfRangeForm c r.size r.offset then .readOor r.offset else .read r.size r.offset := by
  rw [outOfRangeForm_eq]
  cases hc : c.ctl <;> simp [hc, Controller.variant] at hv <;> simp [readRow, hc, Controller.variant]

theorem readRow_baseline (hv : c.ctl.variant = .C) (r : Record) : readRow c r = .readC r.size r.offset := by
  simp [readRow, hv]

theorem writeRow_richer (hv : c.ctl.variant ≠ .C) (r : Record) :
    writeRow c r =
      if outOfRangeForm c r.size r.offset then .writeOor r.offset r.data else .write r.size r.offset r.data := by
  rw [outOfRangeForm_eq]
  cases hc : c.ctl <;> simp [hc, Controller.variant] at hv <;> simp [writeRow, hc, Controller.variant]

theorem writeRow_baseline (hv : c.ctl.variant = .C) (r : Record) :
    writeRow c r = .writeC r.size r.offset r.data := by
  simp [writeRow, hv]

theorem outOfRangeForm_size {size : Byte} {offset : Word} (h : outOfRangeForm c size offset = true) :
    size = 4#8 := by
  rw [outOfRangeForm_eq, Bool.and_eq_true] at h
  exact deliverable_size h.1

theorem readRow_wf (c : Config) (r : Record) : (readRow c r).wf c = true := by
  by_cases hv : c.ctl.variant = .C
  · simp [readRow_baseline hv, Instr.wf, hv]
  rw [readRow_richer hv]
  split
  next h => simpa [Instr.wf, hv] using outOfRangeForm_size h ▸ h
  next h => simpa [Instr.wf, hv] using h

theorem writeRow_wf (c : Config) (r : Record) : (writeRow c r).wf c = true := by
  by_cases hv : c.ctl.variant = .C
  · simp [writeRow_baseline hv, Instr.wf, hv]
  rw [writeRow_richer hv]
  split
  next h => simpa [Instr.wf, hv] using outOfRangeForm_size h ▸ h
  next h => simpa [Instr.wf, hv] using h

theorem resetRow_wf (c : Config) : (resetRow c.ctl.variant).wf c = true := by
  cases hv : c.ctl.variant <;> simp [resetRow, Instr.wf, hv]

theorem queryRow_wf (c : Config) (clk : ClockId) : (queryRow c.ctl.variant clk).wf c = true := by
  cases hv : c.ctl.variant with
  | A =>
    rcases clockId_cases clk with rfl | rfl | rfl | rfl | rfl | rfl | rfl | h7
    case inr.inr.inr.inr.inr.inr.inr => simp [queryRow, queryRowA_unrecognised h7, Instr.wf, hv, h7]
    all_goals simp [queryRow, queryRowA, Instr.wf, hv]
  | B =>
    rcases clockId_cases clk with rfl | rfl | rfl | rfl | rfl | rfl | rfl | h7
    case inr.inr.inr.inr.inr.inr.inr => simp [queryRow, queryRowB_unrecognised h7, Instr.wf, hv, h7]
    all_goals simp [queryRow, queryRowB, Instr.wf, hv]
  | C => simp [queryRow, Instr.wf, hv]

/-- Settles O4: each of the eight kinds of record selects a row of the variant. -/
theorem everyRecordSelectsARowOfItsVariant : Obligations.EveryRecordSelectsARowOfItsVariant := by
  intro c r version image
  cases rowOfRecord c r version image with
  | reservedOp hcmd hi => simpa [hi, Instr.wf] using hcmd
  | reservedArg hcmd hi => simpa [hi, Instr.wf, and_assoc] using hcmd
  | read _ hi => exact hi ▸ readRow_wf c r
  | write _ hi => exact hi ▸ writeRow_wf c r
  | reset _ hi => exact hi ▸ resetRow_wf c
  | query _ hi => exact hi ▸ queryRow_wf c (argOf r.cmd)
  | save _ hi => simp [hi, Instr.wf]
  | restore _ hi => simp [hi, Instr.wf]

/-! ### The encoder's records -/

theorem encode_readRow (c : Config) (r : Record) : encode (readRow c r) = readRecord r.size r.offset := by
  by_cases hv : c.ctl.variant = .C
  · rw [readRow_baseline hv, encode]
  rw [readRow_richer hv]
  split
  next h => rw [encode, outOfRangeForm_size h]
  next h => rw [encode]

theorem encode_writeRow (c : Config) (r : Record) :
    encode (writeRow c r) = writeRecord r.size r.offset r.data := by
  by_cases hv : c.ctl.variant = .C
  · rw [writeRow_baseline hv, encode]
  rw [writeRow_richer hv]
  split
  next h => rw [encode, outOfRangeForm_size h]
  next h => rw [encode]

theorem encode_resetRow (v : Variant) : encode (resetRow v) = bareRecord 0x20#8 := by
  cases v <;> rfl

theorem encode_save : encode .save = bareRecord 0x40#8 := rfl

theorem encode_queryRow (v : Variant) (clk : ClockId) : encode (queryRow v clk) = queryRecord clk := by
  cases v with
  | A =>
    rcases clockId_cases clk with rfl | rfl | rfl | rfl | rfl | rfl | rfl | h7
    case inr.inr.inr.inr.inr.inr.inr => rw [queryRow, queryRowA_unrecognised h7, encode]
    all_goals rfl
  | B =>
    rcases clockId_cases clk with rfl | rfl | rfl | rfl | rfl | rfl | rfl | h7
    case inr.inr.inr.inr.inr.inr.inr => rw [queryRow, queryRowB_unrecognised h7, encode]
    all_goals rfl
  | C => rfl

/-- A canonical record of a command that takes no operand is its command byte and zeros (R71). -/
theorem canonical_eq_bareRecord (hq : (Request.record r version image).canonical = true)
    (h0 : r.cmd ≠ 0x00#8) (h1 : r.cmd ≠ 0x10#8) (h5 : r.cmd ≠ 0x50#8) :
    Request.record r version image = bareRecord r.cmd := by
  obtain ⟨cmd, size, offset, data⟩ := r
  change cmd ≠ 0x00#8 at h0
  change cmd ≠ 0x10#8 at h1
  change cmd ≠ 0x50#8 at h5
  obtain ⟨⟨rfl, rfl⟩, rfl, rfl, rfl⟩ :
      (size = 0#8 ∧ offset = 0#32) ∧ data = 0#32 ∧ version = 0 ∧ image = [] := by
    simpa [Request.canonical, h0, h1, h5, and_assoc] using hq
  rfl

/-- Settles O3: the encoder writes the command byte and the operands of the row, and 0 in the fields that a canonical
record leaves 0. -/
theorem encodeDecodeIsIdentityOnCanonicalRequests : Obligations.EncodeDecodeIsIdentityOnCanonicalRequests := by
  intro c q hq
  cases q with
  | pllw word base => rfl
  | record r version image =>
    rw [decode]
    cases rowOfRecord c r version image with
    | reservedOp hcmd hi =>
      rw [hi, encode, canonical_eq_bareRecord hq] <;> rintro h <;> simp [h] at hcmd
    | reservedArg hcmd hi =>
      rw [hi, encode, canonical_eq_bareRecord hq] <;> rintro h <;> simp [h] at hcmd
    | read hcmd hi =>
      obtain ⟨cmd, size, offset, data⟩ := r
      obtain rfl : cmd = 0x00#8 := hcmd
      obtain ⟨rfl, rfl, rfl⟩ : data = 0#32 ∧ version = 0 ∧ image = [] := by simpa [Request.canonical] using hq
      rw [hi, encode_readRow]
      rfl
    | write hcmd hi =>
      obtain ⟨cmd, size, offset, data⟩ := r
      obtain rfl : cmd = 0x10#8 := hcmd
      obtain ⟨rfl, rfl⟩ : version = 0 ∧ image = [] := by simpa [Request.canonical] using hq
      rw [hi, encode_writeRow]
      rfl
    | reset hcmd hi =>
      rw [hi, encode_resetRow, canonical_eq_bareRecord hq, hcmd] <;> simp [hcmd]
    | query hcmd hi =>
      rw [hi, encode_queryRow, queryRecord, ← hcmd, cmdByte_opOf_argOf, canonical_eq_bareRecord hq]
        <;> rintro h <;> simp [h, opOf] at hcmd
    | save hcmd hi =>
      rw [hi, encode_save, canonical_eq_bareRecord hq, hcmd] <;> simp [hcmd]
    | restore hcmd hi =>
      obtain ⟨cmd, size, offset, data⟩ := r
      obtain rfl : cmd = 0x50#8 := hcmd
      obtain ⟨⟨rfl, rfl⟩, rfl⟩ : (size = 0#8 ∧ offset = 0#32) ∧ data = 0#32 := by
        simpa [Request.canonical] using hq
      rw [hi]
      rfl

/-! ### Decoding what the encoder wrote -/

theorem decode_readRecord (c : Config) (size : Byte) (offset : Word) :
    decode c (readRecord size offset) = readRow c ⟨0x00#8, size, offset, 0#32⟩ := by
  simp [decode, readRecord, decodeRecord, opOf_cmdByte, argOf_cmdByte]
  rfl

theorem decode_writeRecord (c : Config) (size : Byte) (offset data : Word) :
    decode c (writeRecord size offset data) = writeRow c ⟨0x10#8, size, offset, data⟩ := by
  simp [decode, writeRecord, decodeRecord, opOf_cmdByte, argOf_cmdByte]
  rfl

theorem decode_queryRecord (c : Config) (clk : ClockId) :
    decode c (queryRecord clk) = queryRow c.ctl.variant clk := by
  rw [queryRecord, bareRecord, decode_query_record c (opOf_cmdByte _ _), argOf_cmdByte]

theorem decode_resetRecord (c : Config) :
    decode c (bareRecord (cmdByte 0x2#4 0x0#4)) = resetRow c.ctl.variant := by
  simp [decode, bareRecord, decodeRecord, opOf_cmdByte, argOf_cmdByte]

/-- Settles O2: each row's record decodes to the row again, under the condition that well-formedness puts on it. -/
theorem decodeEncodeIsIdentity : Obligations.DecodeEncodeIsIdentity := by
  intro c i hw
  cases i <;> simp only [Instr.wf, Bool.and_eq_true, bne_iff_ne, beq_iff_eq, Bool.not_eq_true', decide_eq_true_eq] at hw
  case read | readOor => simp [encode, decode_readRecord, readRow_richer hw.1, hw.2]
  case readC => rw [encode, decode_readRecord, readRow_baseline hw]
  case write | writeOor => simp [encode, decode_writeRecord, writeRow_richer hw.1, hw.2]
  case writeC => rw [encode, decode_writeRecord, writeRow_baseline hw]
  case resetA | resetB | resetC => simp [encode, decode_resetRecord, hw, resetRow]
  case qANoclk | qAMpll | qAUpll | qAMcu | qAAhb | qAIpg | qA32k | qBNoclk | qBMpllUnsupported | qBUpllUnsupported
      | qBMcu | qBHsp | qBIpg | qB32k =>
    rw [encode, decode_queryRecord, hw]
    rfl
  case qAUnrecognised => rw [encode, decode_queryRecord, hw.1, queryRow, queryRowA_unrecognised hw.2]
  case qBUnrecognised => rw [encode, decode_queryRecord, hw.1, queryRow, queryRowB_unrecognised hw.2]
  case qCRefused => rw [encode, decode_queryRecord, hw, queryRow]
  case save | restore | pllw => rfl
  case reservedOp => exact decodeRecord_reservedOp hw
  case reservedArg => exact decodeRecord_reservedArg (and_assoc.mp hw)

/-! ### The bytes of a record -/

theorem word_of_bytesOfWord (w : Word) :
    w.extractLsb' 24 8 ++ w.extractLsb' 16 8 ++ w.extractLsb' 8 8 ++ w.extractLsb' 0 8 = w := by
  rw [BitVec.extractLsb'_append_extractLsb'_eq_extractLsb' (by omega),
    BitVec.extractLsb'_append_extractLsb'_eq_extractLsb' (by omega),
    BitVec.extractLsb'_append_extractLsb'_eq_extractLsb' (by omega)]
  exact BitVec.extractLsb'_eq_self

theorem bytesOfWord_append (b3 b2 b1 b0 : Byte) : bytesOfWord (b3 ++ b2 ++ b1 ++ b0) = [b3, b2, b1, b0] := by
  have h3 : (b3 ++ b2 ++ b1 ++ b0).extractLsb' 24 8 = b3 := by
    rw [BitVec.extractLsb'_append_eq_of_le (by omega), BitVec.extractLsb'_append_eq_of_le (by omega)]
    exact BitVec.extractLsb'_append_eq_left
  have h2 : (b3 ++ b2 ++ b1 ++ b0).extractLsb' 16 8 = b2 := by
    rw [BitVec.extractLsb'_append_eq_of_le (by omega), BitVec.extractLsb'_append_eq_of_le (by omega)]
    exact BitVec.extractLsb'_append_eq_right
  have h1 : (b3 ++ b2 ++ b1 ++ b0).extractLsb' 8 8 = b1 := by
    rw [BitVec.extractLsb'_append_eq_of_le (by omega)]
    exact BitVec.extractLsb'_append_eq_right
  have h0 : (b3 ++ b2 ++ b1 ++ b0).extractLsb' 0 8 = b0 := BitVec.extractLsb'_append_eq_right
  rw [bytesOfWord, h3, h2, h1, h0]

theorem recordOfBytes_short {bs : List Byte} (h : bs.length < 10) : recordOfBytes bs = .error .truncated := by
  unfold recordOfBytes
  split
  · simp at h
  · exact if_pos h

theorem recordOfBytes_long {bs : List Byte} (h : 10 < bs.length) : recordOfBytes bs = .error .overlong := by
  unfold recordOfBytes
  split
  · simp at h
  · exact if_neg (by omega)

theorem recordOfBytes_bytesOfRecord (r : Record) : recordOfBytes (bytesOfRecord r) = .ok r := by
  obtain ⟨cmd, size, offset, data⟩ := r
  simp [bytesOfRecord, bytesOfWord, recordOfBytes, word_of_bytesOfWord]

theorem bytesOfRecord_of_ten {bs : List Byte} (h : bs.length = 10) :
    ∃ r, recordOfBytes bs = .ok r ∧ bytesOfRecord r = bs := by
  match bs, h with
  | [cmd, size, o3, o2, o1, o0, d3, d2, d1, d0], _ =>
    exact ⟨_, rfl, by simp [bytesOfRecord, bytesOfWord_append]⟩

/-- Settles O5: OFFSET and DATA are their own four bytes, and the other lengths fall to the rejecting case. -/
theorem recordsAreTenBytes : Obligations.RecordsAreTenBytes :=
  ⟨recordOfBytes_bytesOfRecord, fun _ => bytesOfRecord_of_ten, fun _ => recordOfBytes_short,
    fun _ => recordOfBytes_long⟩

/-! ### Refused commands -/

/-- R86: a reserved command byte selects a reserved row. -/
theorem decode_isReserved (h : 0x60 ≤ r.cmd.toNat ∨ (r.cmd.toNat / 16 ≠ 3 ∧ r.cmd.toNat % 16 ≠ 0)) :
    (decode c (.record r version image)).isReserved = true := by
  by_cases hop : 0x60 ≤ r.cmd.toNat
  · rw [decode, decodeRecord_reservedOp hop, Instr.isReserved]
  · rw [decode, decodeRecord_reservedArg ⟨by omega, h.resolve_left hop⟩, Instr.isReserved]

theorem opOf_query (h : r.cmd.toNat / 16 = 3) : opOf r.cmd = 3#4 :=
  BitVec.eq_of_toNat_eq ((opOf_toNat r.cmd).trans h)

theorem queryRow_not_reserved (v : Variant) (clk : ClockId) : (queryRow v clk).isReserved = false := by
  cases v with
  | A =>
    change (queryRowA clk).isReserved = false
    unfold queryRowA
    split <;> rfl
  | B =>
    change (queryRowB clk).isReserved = false
    unfold queryRowB
    split <;> rfl
  | C => rfl

/-- Settles O6: the reserved check is the first, and no QUERY row is a reserved one. -/
theorem reservedCommandsAreRefused : Obligations.ReservedCommandsAreRefused := by
  refine ⟨fun s r version image h => exec_reserved (decode_isReserved h), fun s r version image h => ?query,
    fun s cmd => ⟨exec_reserved rfl, exec_reserved rfl⟩⟩
  case query =>
    rw [decode_query_record s.cfg (opOf_query h), Ne, exec_refused_reservedCommand_iff (queryRow_wf _ _),
      queryRow_not_reserved]
    exact Bool.false_ne_true

/-- Settles O46: the record selects Q.C.REFUSED, which refuses before the `ready` check. -/
theorem baselineRefusesQueries : Obligations.BaselineRefusesQueries := by
  intro s q version image hc hq
  have hrefused (clk : ClockId) : exec (.qCRefused clk) s = .refused .noQueryCapability := whenC_c hc
  rw [decode_query_record s.cfg (opOf_query hq), variant_eq_C_iff.mpr hc]
  exact ⟨hrefused _, hrefused⟩

/-- Settles O1: each clause evaluates the decoder on one record. -/
theorem commandBytesSelectTheirRows : Obligations.CommandBytesSelectTheirRows := by
  refine ⟨?_, ?_, ?_, ?_, ?_, ?_, ?_, ?_, ?_, ?_, ?_, ?_, ?_, ?_, ?_, ?_, ?_⟩ <;> decide

end Sys2Proof.Machine
end

section
/-! PROOFS. The PLL word and the PLL formula (spec/30_encoding.md R80 to R83, spec/40_pll.md R100 to R110): the bits of
a slice, then each intermediate of the formula as a natural number, then the statements. -/

namespace Sys2Proof.Machine

variable {w w' base base' : Word} {l : PllLayout} {f : PllFields}

/-! ### Slices of a word -/

theorem bits_eq_div (w : Word) (lo width : Nat) : bits w lo width = w.toNat / 2 ^ lo % 2 ^ width := by
  rw [bits, Nat.shiftRight_eq_div_pow]

theorem testBit_bits (w : Word) (lo width k : Nat) :
    (bits w lo width).testBit k = (decide (k < width) && w.getLsbD (lo + k)) := by
  rw [bits, Nat.testBit_mod_two_pow, Nat.testBit_shiftRight, BitVec.testBit_toNat]

/-- R9: a slice depends on its own bits only. -/
theorem bits_congr {lo width : Nat} (h : ∀ k, k < width → w.getLsbD (lo + k) = w'.getLsbD (lo + k)) :
    bits w lo width = bits w' lo width := by
  refine Nat.eq_of_testBit_eq fun k => ?_
  rw [testBit_bits, testBit_bits]
  by_cases hk : k < width
  · rw [h k hk]
  · simp [hk]

/-- A number that has the bits of `v` in a slice carries `v` there. -/
theorem bits_ofNat {g : Slice} {n v : Nat} (hg : g.wf = true) (hv : v < 2 ^ g.width)
    (h : ∀ k, k < g.width → n.testBit (g.lo + k) = v.testBit k) : bits (BitVec.ofNat 32 n) g.lo g.width = v := by
  obtain ⟨-, hlt⟩ : 0 < g.width ∧ g.lo + g.width ≤ 32 := by simpa [Slice.wf] using hg
  refine Nat.eq_of_testBit_eq fun k => ?_
  rw [testBit_bits, BitVec.getLsbD_ofNat]
  by_cases hk : k < g.width
  · simp [hk, h k hk, show g.lo + k < 32 by omega]
  · simp [hk, Nat.testBit_lt_two_pow (hv.trans_le (Nat.pow_le_pow_right two_pos (not_lt.mp hk)))]

/-- A value shifted into one slice has no bits in a slice that does not overlap it (R80). -/
theorem testBit_of_disjoint {g g' : Slice} (hd : g.disjoint g' = true) {v : Nat} (hv : v < 2 ^ g'.width) {k : Nat}
    (hk : k < g.width) : (v <<< g'.lo).testBit (g.lo + k) = false := by
  simp only [Slice.disjoint, Bool.or_eq_true, decide_eq_true_eq] at hd
  rw [Nat.testBit_shiftLeft]
  obtain hd | hd := hd
  · simp [show ¬ g'.lo ≤ g.lo + k by omega]
  · have hge : g'.width ≤ g.lo + k - g'.lo := by omega
    simp [Nat.testBit_lt_two_pow (hv.trans_le (Nat.pow_le_pow_right two_pos hge))]

theorem slice_disjoint_symm {g g' : Slice} (h : g.disjoint g' = true) : g'.disjoint g = true :=
  (Bool.or_comm _ _).trans h

/-- A value shifted into a slice has its own bits there. -/
theorem testBit_of_same (g : Slice) (v k : Nat) : (v <<< g.lo).testBit (g.lo + k) = v.testBit k := by
  simp [Nat.testBit_shiftLeft]

/-- Settles O7: in the bits of each field the other three fields have none. -/
theorem pllWordFieldsRoundTrip : Obligations.PllWordFieldsRoundTrip := by
  intro l f hl hf
  simp only [PllLayout.wf, Bool.and_eq_true] at hl
  obtain ⟨⟨⟨⟨⟨⟨⟨⟨⟨wpd, wmfd⟩, wmfi⟩, wmfn⟩, pd_mfd⟩, pd_mfi⟩, pd_mfn⟩, mfd_mfi⟩, mfd_mfn⟩, mfi_mfn⟩ := hl
  simp only [PllFields.wf, Bool.and_eq_true, decide_eq_true_eq] at hf
  obtain ⟨⟨hpd, hmfd⟩, hmfi⟩ := hf
  have hmfn : f.mfn.toNat < 2 ^ l.mfn.width := f.mfn.isLt
  have hword : pllWord l f = BitVec.ofNat 32
      (f.pd <<< l.pd.lo ||| f.mfd <<< l.mfd.lo ||| f.mfi <<< l.mfi.lo ||| f.mfn.toNat <<< l.mfn.lo) := rfl
  have epd : bits (pllWord l f) l.pd.lo l.pd.width = f.pd := by
    refine hword ▸ bits_ofNat wpd hpd fun k hk => ?_
    simp only [Nat.testBit_or, testBit_of_same, testBit_of_disjoint pd_mfd hmfd hk,
      testBit_of_disjoint pd_mfi hmfi hk, testBit_of_disjoint pd_mfn hmfn hk, Bool.or_false]
  have emfd : bits (pllWord l f) l.mfd.lo l.mfd.width = f.mfd := by
    refine hword ▸ bits_ofNat wmfd hmfd fun k hk => ?_
    simp only [Nat.testBit_or, testBit_of_same, testBit_of_disjoint (slice_disjoint_symm pd_mfd) hpd hk,
      testBit_of_disjoint mfd_mfi hmfi hk, testBit_of_disjoint mfd_mfn hmfn hk, Bool.or_false, Bool.false_or]
  have emfi : bits (pllWord l f) l.mfi.lo l.mfi.width = f.mfi := by
    refine hword ▸ bits_ofNat wmfi hmfi fun k hk => ?_
    simp only [Nat.testBit_or, testBit_of_same, testBit_of_disjoint (slice_disjoint_symm pd_mfi) hpd hk,
      testBit_of_disjoint (slice_disjoint_symm mfd_mfi) hmfd hk, testBit_of_disjoint mfi_mfn hmfn hk, Bool.or_false,
      Bool.false_or]
  have emfn : bits (pllWord l f) l.mfnLo 10 = f.mfn.toNat := by
    refine hword ▸ bits_ofNat wmfn hmfn fun k hk => ?_
    simp only [Nat.testBit_or, testBit_of_same, testBit_of_disjoint (slice_disjoint_symm pd_mfn) hpd hk,
      testBit_of_disjoint (slice_disjoint_symm mfd_mfn) hmfd hk,
      testBit_of_disjoint (slice_disjoint_symm mfi_mfn) hmfi hk, Bool.false_or]
  rw [pllFields, epd, emfd, emfi, emfn, BitVec.ofNat_toNat, BitVec.setWidth_eq]

/-! ### The formula as arithmetic of natural numbers -/

theorem mfiOf_eq_max (f : PllFields) : mfiOf f = max 5 f.mfi := by
  unfold mfiOf
  split <;> omega

/-- `2 *32 (base >> 10)` does not wrap (R110). -/
theorem pllT1_toNat (base : Word) : (pllT1 base).toNat = 2 * (base.toNat / 1024) := by
  have := base.isLt
  simp [pllT1, BitVec.toNat_mul, Nat.shiftRight_eq_div_pow]
  omega

theorem u32_toNat (z : Int) : (u32 z).toNat = (z % 2 ^ 32).toNat := by
  simp [u32, BitVec.toNat_ofInt]

theorem pllProduct_toNat (f : PllFields) (base : Word) :
    (pllProduct f base).toNat = 2 * (base.toNat / 1024) * (pllSum f % 2 ^ 32).toNat % 2 ^ 32 := by
  rw [pllProduct, BitVec.toNat_mul, pllT1_toNat, u32_toNat]

theorem pllQuotient_toNat (f : PllFields) (base : Word) :
    (pllQuotient f base).toNat = (pllProduct f base).toNat / pllDen f := divU_toNat _ _

theorem pll_toNat (l : PllLayout) (w base : Word) :
    (pll l w base).toNat = (pllQuotient (pllFields l w) base).toNat * 1024 % 2 ^ 32 := by
  simp [pll, Nat.shiftLeft_eq]

/-- Settles O9: the four intermediates as natural numbers. -/
theorem pllFormulaIsModularArithmetic : Obligations.PllFormulaIsModularArithmetic := by
  intro s r w base hr f num p q
  have hp : (pllProduct f base).toNat = p := by
    rw [pllProduct_toNat, pllSum, mfiOf_eq_max]
    rfl
  have hq : (pllQuotient f base).toNat = q := by
    rw [pllQuotient_toNat, hp]
    rfl
  exact ⟨hp, hq, _, rfl, by rw [pll_toNat, ← hq], whenRicher_some hr⟩

/-- Settles O10: no field of the default layout contains one of the four bits. -/
theorem pllIgnoresBitsOutsideItsFields : Obligations.PllIgnoresBitsOutsideItsFields := by
  intro w w' base h
  have hslice (lo width : Nat) (hlt : lo + width ≤ 14 ∨ 16 ≤ lo ∧ lo + width ≤ 30) :
      bits w lo width = bits w' lo width :=
    bits_congr fun k hk => h _ (by omega) (by omega) (by omega) (by omega) (by omega)
  have hfields : pllFields defaultLayout w = pllFields defaultLayout w' := by
    simp [pllFields, defaultLayout, hslice]
  rw [pll, pll, hfields]

/-- R105: of the base, the formula reads `base >> 10` only. -/
theorem pll_congr_base (h : base.toNat / 1024 = base'.toNat / 1024) : pll l w base = pll l w base' := by
  have ht : pllT1 base = pllT1 base' := BitVec.eq_of_toNat_eq (by rw [pllT1_toNat, pllT1_toNat, h])
  rw [pll, pll, pllQuotient, pllQuotient, pllProduct, pllProduct, ht]

/-- Settles O12: the two bases give the same `t1`. -/
theorem pllReadsOnlyHighBaseBits : Obligations.PllReadsOnlyHighBaseBits :=
  fun _ _ _ _ => pll_congr_base

/-- Settles O13: the final shift makes a multiple of 1024, which 2^32 is as well. -/
theorem pllResultIsMultipleOf1024 : Obligations.PllResultIsMultipleOf1024 := by
  intro l w base
  rw [pll_toNat]
  omega

/-- Settles O14: MFI enters the formula through `mfiOf` alone, which is 5 for both words. -/
theorem pllClampsMfiToFive : Obligations.PllClampsMfiToFive := by
  intro l w w' base hlt h
  have hmfi : mfiOf (pllFields l w') = mfiOf (pllFields l w) := by simp [h, mfiOf, hlt]
  have hsum : pllSum (pllFields l w') = pllSum (pllFields l w) := by
    rw [pllSum, pllSum, hmfi, h]
    rfl
  have hden : pllDen (pllFields l w') = pllDen (pllFields l w) := by
    rw [h]
    rfl
  rw [pll, pll, pllQuotient, pllQuotient, pllProduct, pllProduct, hsum, hden]

/-- The result is 0 exactly when the shift drops all of the quotient. -/
theorem pll_eq_zero_iff : pll l w base = 0#32 ↔ 2 ^ 22 ∣ (pllQuotient (pllFields l w) base).toNat := by
  rw [← BitVec.toNat_inj, pll_toNat, BitVec.toNat_ofNat]
  omega

theorem pllProduct_eq_zero_of_base (f : PllFields) (h : base.toNat < 1024) : pllProduct f base = 0#32 := by
  have ht : pllT1 base = 0#32 := BitVec.eq_of_toNat_eq (by rw [pllT1_toNat, Nat.div_eq_of_lt h]; rfl)
  rw [pllProduct, ht, BitVec.zero_mul]

theorem pllQuotient_eq_zero_of_lt (h : (pllProduct f base).toNat < pllDen f) :
    (pllQuotient f base).toNat = 0 := by
  rw [pllQuotient_toNat, Nat.div_eq_of_lt h]

/-- Settles O11: the first three conditions make the quotient 0, and only the quotient is left to the shift. -/
theorem pllIsZeroExactlyWhen : Obligations.PllIsZeroExactlyWhen := by
  intro l w base
  have hproduct {b : Word} (h : pllProduct (pllFields l w) b = 0#32) :
      2 ^ 22 ∣ (pllQuotient (pllFields l w) b).toNat := by
    rw [pllQuotient_eq_zero_of_lt (by rw [h]; exact pllDen_pos _)]
    exact dvd_zero _
  refine ⟨⟨fun h => .inr (.inr (.inr (pll_eq_zero_iff.mp h))), fun h => pll_eq_zero_iff.mpr ?_⟩, ?_⟩
  · obtain h | h | h | h := h
    · exact hproduct (pllProduct_eq_zero_of_base _ h)
    · exact hproduct h
    · rw [pllQuotient_eq_zero_of_lt h]
      exact dvd_zero _
    · exact h
  · exact pll_eq_zero_iff.mpr (hproduct (pllProduct_eq_zero_of_base _ (by decide)))

/-! ### The default layout -/

theorem pllFields_default (w : Word) :
    pllFields defaultLayout w =
      { pd := w.toNat / 2 ^ 26 % 16, mfd := w.toNat / 2 ^ 16 % 1024, mfi := w.toNat / 2 ^ 10 % 16
        mfn := BitVec.ofNat 10 (w.toNat % 1024) } := by
  simp [pllFields, defaultLayout, bits_eq_div]

/-- R82 step 1: sign extension in numbers. -/
theorem mfnOf_eq (f : PllFields) :
    mfnOf f = if f.mfn.toNat < 512 then (f.mfn.toNat : Int) else (f.mfn.toNat : Int) - 1024 := by
  rw [mfnOf, sext10, BitVec.toInt_eq_toNat_cond]
  split <;> split <;> omega

theorem mfnOf_range (f : PllFields) : -512 ≤ mfnOf f ∧ mfnOf f ≤ 511 := by
  have := f.mfn.isLt
  rw [mfnOf_eq]
  split <;> omega

/-- The ranges of the unsigned operands under the default layout (R82). -/
theorem operands_default_range (w : Word) :
    5 ≤ mfiOf (pllFields defaultLayout w) ∧ mfiOf (pllFields defaultLayout w) ≤ 15
      ∧ 1 ≤ mfdOf (pllFields defaultLayout w) ∧ mfdOf (pllFields defaultLayout w) ≤ 1024
      ∧ 1 ≤ pdOf (pllFields defaultLayout w) ∧ pdOf (pllFields defaultLayout w) ≤ 16 := by
  rw [pllFields_default, mfiOf_eq_max, mfdOf, pdOf]
  dsimp only
  omega

/-- Settles O8: the fields are quotients and remainders of the word. -/
theorem pllOperandsUnderDefaultLayout : Obligations.PllOperandsUnderDefaultLayout := by
  intro w f
  obtain ⟨hmfi, hmfi', hmfd, hmfd', hpd, hpd'⟩ := operands_default_range w
  obtain ⟨hmfn, hmfn'⟩ := mfnOf_range f
  have hf : f = _ := pllFields_default w
  have hraw : f.mfn.toNat = w.toNat % 1024 := by rw [hf]; simp
  exact ⟨by rw [hf], by rw [hf], by rw [hf], hraw, by rw [mfnOf_eq, hraw], by rw [mfiOf_eq_max, hf], by rw [mfdOf, hf],
    by rw [pdOf, hf], hmfn, hmfn', hmfi, hmfi', hmfd, hmfd', hpd, hpd'⟩

/-- R110: `mfi * mfd` is 5 to 15,360 under the default layout. -/
theorem mfi_mul_mfd_range (w : Word) :
    5 ≤ mfiOf (pllFields defaultLayout w) * mfdOf (pllFields defaultLayout w)
      ∧ mfiOf (pllFields defaultLayout w) * mfdOf (pllFields defaultLayout w) ≤ 15 * 1024 := by
  obtain ⟨hmfi, hmfi', hmfd, hmfd', -, -⟩ := operands_default_range w
  exact ⟨Nat.mul_le_mul hmfi hmfd, Nat.mul_le_mul hmfi' hmfd'⟩

theorem pllDen_range (w : Word) :
    1 ≤ pllDen (pllFields defaultLayout w) ∧ pllDen (pllFields defaultLayout w) ≤ 1024 * 16 := by
  obtain ⟨-, -, hmfd, hmfd', hpd, hpd'⟩ := operands_default_range w
  exact ⟨pllDen_pos _, Nat.mul_le_mul hmfd' hpd'⟩

theorem pllSum_range (w : Word) :
    -507 ≤ pllSum (pllFields defaultLayout w) ∧ pllSum (pllFields defaultLayout w) ≤ 15871 := by
  obtain ⟨hlo, hhi⟩ := mfi_mul_mfd_range w
  obtain ⟨hmfn, hmfn'⟩ := mfnOf_range (pllFields defaultLayout w)
  rw [pllSum]
  omega

/-- Settles O15: below the bounds no reduction modulo 2^32 has an effect. -/
theorem pllDoesNotWrapBelowTheBounds : Obligations.PllDoesNotWrapBelowTheBounds := by
  intro w base f n hn
  have hsum : pllSum f = n := rfl
  have hhi : n ≤ 15871 := (pllSum_range w).2
  refine ⟨fun hp hq => ?exact, fun hb => ?bound⟩
  case exact =>
    have hnum : n % 2 ^ 32 = n := Int.emod_eq_of_lt hn (by omega)
    have hproduct : (pllProduct f base).toNat = 2 * (base.toNat / 1024) * n.toNat := by
      rw [pllProduct_toNat, hsum, hnum, Nat.mod_eq_of_lt hp]
    rw [pll_toNat, pllQuotient_toNat, hproduct]
    exact Nat.mod_eq_of_lt (Nat.mul_lt_mul_of_pos_right hq (by norm_num))
  case bound =>
    have hb' : 2 * (base.toNat / 1024) ≤ 270616 := by omega
    have hn' : n.toNat ≤ 15871 := by omega
    exact (Nat.mul_le_mul hb' hn').trans_lt (by norm_num)

/-- Settles O16: the ranges of the operands bound each intermediate. -/
theorem pllIntermediatesStayInRange : Obligations.PllIntermediatesStayInRange := by
  intro w base f
  obtain ⟨hlo, hhi⟩ : -507 ≤ pllSum f ∧ pllSum f ≤ 15871 := pllSum_range w
  obtain ⟨hmfn, -⟩ := mfnOf_range f
  have ht := pllT1_toNat base
  have hbase := base.isLt
  have hsum : pllSum f = (mfiOf f * mfdOf f : Nat) + mfnOf f := rfl
  refine ⟨hhi, hlo, hsum, ?negative, ?u32, ht, by omega, pllDen_range w⟩
  case negative =>
    rw [hsum]
    omega
  case u32 =>
    rw [u32_toNat]
    split <;> omega

end Sys2Proof.Machine
end

section
/-! PROOFS. What a transaction depends on (spec/10_state.md R25, spec/20_memory.md R60, spec/41_register_access.md R132,
spec/42_clock_query.md R160, R178, spec/60_exceptions.md R190): one relation between the outcomes in two states of one
configuration (`Alike`), kept by every shared operation, so that each statement is about the values answered. -/

namespace Sys2Proof.Machine

variable {s s' t : State} {i : Instr} {k k' : Out} {r : Richer}

/-! ### Outcomes that differ in the outputs of earlier transactions only -/

/-- From `s` and `s'` the outcomes are the same refusal, or they complete with the same result and the same new events,
and they leave the same registers where the registers were the same. -/
inductive Alike (s s' : State) : Out → Out → Prop where
  | refused (reason : Refusal) : Alike s s' (.refused reason) (.refused reason)
  | next (t t' : State) (events : List Diag) (hresult : t'.result = t.result) (hready : t'.ready = t.ready)
      (hx : s'.x = s.x → t'.x = t.x) (hdiags : t.diags = s.diags ++ events) (hdiags' : t'.diags = s'.diags ++ events) :
      Alike s s' (.next t) (.next t')

section Operations

variable (hc : s'.cfg = s.cfg) (hr : s'.ready = s.ready)

include hr in
theorem alike_answer (a : Result) : Alike s s' (.next (s.answer a)) (.next (s'.answer a)) :=
  .next _ _ [] rfl hr id (by simp) (by simp)

include hr in
theorem alike_raiseDiag (e : Diag) (a : Result) : Alike s s' (raiseDiag s e a) (raiseDiag s' e a) :=
  .next _ _ [e] rfl hr id rfl rfl

include hr in
theorem alike_whenReady (h : Alike s s' k k') : Alike s s' (whenReady s k) (whenReady s' k') := by
  unfold whenReady
  rw [hr]
  split
  · exact h
  · exact .refused _

include hc in
theorem alike_whenRicher {k k' : Richer → Out} (h : ∀ r, s.cfg.ctl.richer = some r → Alike s s' (k r) (k' r)) :
    Alike s s' (whenRicher s k) (whenRicher s' k') := by
  unfold whenRicher
  rw [hc]
  split
  next r hr => exact h r hr
  next => exact .refused _

include hc in
theorem alike_whenA {k k' : Richer → FieldsA → Override → Out}
    (h : ∀ r f o, s.cfg.ctl = .a r f o → Alike s s' (k r f o) (k' r f o)) :
    Alike s s' (whenA s k) (whenA s' k') := by
  unfold whenA
  rw [hc]
  split
  next r f o ha => exact h r f o ha
  next => exact .refused _
  next => exact .refused _

include hc in
theorem alike_whenB {k k' : Richer → FieldsB → Out}
    (h : ∀ r f, s.cfg.ctl = .b r f → Alike s s' (k r f) (k' r f)) : Alike s s' (whenB s k) (whenB s' k') := by
  unfold whenB
  rw [hc]
  split
  next => exact .refused _
  next r f hb => exact h r f hb
  next => exact .refused _

include hc in
theorem alike_whenC (h : Alike s s' k k') : Alike s s' (whenC s k) (whenC s' k') := by
  unfold whenC
  rw [hc]
  split
  next => exact .refused _
  next => exact .refused _
  next => exact h

theorem alike_ite {b : Prop} [Decidable b] {m m' : Out} (h : Alike s s' k k') (hm : Alike s s' m m') :
    Alike s s' (if b then k else m) (if b then k' else m') := by
  split
  · exact h
  · exact hm

include hr in
theorem alike_answerQuery {clk : ClockId} {v v' : Word} (hv : v' = v) :
    Alike s s' (answerQuery s r clk v) (answerQuery s' r clk v') := by
  subst hv
  exact alike_whenReady hr (alike_ite (alike_answer hr _) (alike_raiseDiag hr _ _))

include hr in
theorem alike_unsupportedQuery (clk : ClockId) :
    Alike s s' (whenReady s (unsupportedQuery s clk)) (whenReady s' (unsupportedQuery s' clk)) :=
  alike_whenReady hr (alike_raiseDiag hr _ _)

include hr in
theorem alike_readWord (hx : s'.x = s.x) (offset : Word) : Alike s s' (readWord s offset) (readWord s' offset) := by
  rw [readWord, readWord, hx]
  exact alike_answer hr _

include hr in
theorem alike_setWord (k : Nat) {v v' : Word} (hv : s'.x = s.x → v' = v) :
    Alike s s' (.next ((s.setWord k v).answer .nothing)) (.next ((s'.setWord k v').answer .nothing)) :=
  .next _ _ [] rfl hr (fun hx => by simp [hx, hv hx]) (by simp) (by simp)

theorem alike_load (image : List Word) (a : Result) :
    Alike s s' (.next ((s.load image).answer a)) (.next ((s'.load image).answer a)) :=
  .next _ _ [] rfl rfl (fun _ => rfl) (by simp) (by simp)

/-! ### Every instruction -/

/-- The clocks of variant A's chain have the same values in both register files. -/
structure SameClocksA (r : Richer) (f : FieldsA) (x x' : List Word) : Prop where
  mpll : mpllA r f x' = mpllA r f x
  upll : upllA r f x' = upllA r f x
  mcu : mcuA r f x' = mcuA r f x
  ahb : ahbA r f x' = ahbA r f x
  ipg : ipgA r f x' = ipgA r f x

/-- The clocks of variant B's chain have the same values in both register files. -/
structure SameClocksB (r : Richer) (f : FieldsB) (x x' : List Word) : Prop where
  mcu : mcuB r f x' = mcuB r f x
  hsp : hspB r f x' = hspB r f x
  ipg : ipgB r f x' = ipgB r f x

include hc hr in
/-- R160, R178: a query depends on the register file through its chain's clocks only. -/
theorem exec_query_alike (hA : ∀ r f o, s.cfg.ctl = .a r f o → SameClocksA r f s.x s'.x)
    (hB : ∀ r f, s.cfg.ctl = .b r f → SameClocksB r f s.x s'.x) (hq : i.isQuery = true) :
    Alike s s' (exec i s) (exec i s') := by
  cases i <;> simp only [Instr.isQuery, Bool.false_eq_true] at hq
  case qANoclk => exact alike_whenA hc fun _ _ _ _ => alike_whenReady hr (alike_answer hr _)
  case qAMpll => exact alike_whenA hc fun r f o h => alike_answerQuery hr (hA r f o h).mpll
  case qAUpll => exact alike_whenA hc fun r f o h => alike_answerQuery hr (hA r f o h).upll
  case qAMcu => exact alike_whenA hc fun r f o h => alike_answerQuery hr (hA r f o h).mcu
  case qAAhb => exact alike_whenA hc fun r f o h => alike_answerQuery hr (hA r f o h).ahb
  case qAIpg => exact alike_whenA hc fun r f o h => alike_answerQuery hr (hA r f o h).ipg
  case qA32k => exact alike_whenA hc fun _ _ _ _ => alike_answerQuery hr rfl
  case qAUnrecognised clk =>
    exact alike_whenA hc fun _ _ _ _ => alike_ite (alike_unsupportedQuery hr clk) (.refused _)
  case qBNoclk => exact alike_whenB hc fun _ _ _ => alike_whenReady hr (alike_answer hr _)
  case qBMpllUnsupported | qBUpllUnsupported => exact alike_whenB hc fun _ _ _ => alike_unsupportedQuery hr _
  case qBMcu => exact alike_whenB hc fun r f h => alike_answerQuery hr (hB r f h).mcu
  case qBHsp => exact alike_whenB hc fun r f h => alike_answerQuery hr (hB r f h).hsp
  case qBIpg => exact alike_whenB hc fun r f h => alike_answerQuery hr (hB r f h).ipg
  case qB32k => exact alike_whenB hc fun _ _ _ => alike_answerQuery hr rfl
  case qBUnrecognised clk =>
    exact alike_whenB hc fun _ _ _ => alike_ite (alike_unsupportedQuery hr clk) (.refused _)

include hc hr in
theorem exec_read_alike (hx : s'.x = s.x) (hi : i.isRead = true) : Alike s s' (exec i s) (exec i s') := by
  cases i <;> simp only [Instr.isRead, Bool.false_eq_true] at hi
  case read size offset =>
    refine alike_whenRicher hc fun r _ => alike_whenReady hr ?_
    rw [hc]
    exact alike_ite (alike_ite (alike_readWord hr hx _) (alike_raiseDiag hr _ _)) (.refused _)
  case readOor offset =>
    refine alike_whenRicher hc fun r _ => ?_
    rw [hc]
    exact alike_ite (alike_whenReady hr (alike_raiseDiag hr _ _)) (.refused _)
  case readC size offset =>
    refine alike_whenC hc (alike_whenReady hr ?_)
    rw [hc]
    exact alike_ite (alike_readWord hr hx _) (.refused _)

include hc hr in
theorem exec_write_alike (hi : i.isWrite = true) : Alike s s' (exec i s) (exec i s') := by
  cases i <;> simp only [Instr.isWrite, Bool.false_eq_true] at hi
  case write size offset v =>
    refine alike_whenRicher hc fun r _ => alike_whenReady hr ?_
    rw [hc]
    exact alike_ite (alike_ite (alike_setWord hr _ fun hx => by rw [hx]) (alike_raiseDiag hr _ _)) (.refused _)
  case writeOor offset v =>
    refine alike_whenRicher hc fun r _ => ?_
    rw [hc]
    exact alike_ite (alike_whenReady hr (alike_raiseDiag hr _ _)) (.refused _)
  case writeC size offset v =>
    refine alike_whenC hc (alike_whenReady hr ?_)
    rw [hc]
    exact alike_ite (alike_setWord hr _ fun _ => rfl) (.refused _)

include hc in
theorem exec_reset_alike (hi : i.isReset = true) : Alike s s' (exec i s) (exec i s') := by
  cases i <;> simp only [Instr.isReset, Bool.false_eq_true] at hi
  case resetA =>
    refine alike_whenA hc fun _ _ _ _ => ?_
    rw [hc]
    exact alike_load _ _
  case resetB =>
    refine alike_whenB hc fun _ _ _ => ?_
    rw [hc]
    exact alike_load _ _
  case resetC =>
    refine alike_whenC hc ?_
    rw [hc]
    exact alike_load _ _

include hc hr in
/-- R25, R190: what a transaction does depends on the configuration, the register file and `ready` alone. -/
theorem exec_alike (hx : s'.x = s.x) (i : Instr) : Alike s s' (exec i s) (exec i s') := by
  cases i with
  | read | readOor | readC => exact exec_read_alike hc hr hx rfl
  | write | writeOor | writeC => exact exec_write_alike hc hr rfl
  | resetA | resetB | resetC => exact exec_reset_alike hc rfl
  | qCRefused clk => exact alike_whenC hc (.refused _)
  | save =>
    refine alike_whenReady hr ?_
    rw [hc, hx]
    exact alike_answer hr _
  | restore version image =>
    change Alike s s' (execRestore version image s) (execRestore version image s')
    rw [execRestore, execRestore, hc]
    exact alike_ite (alike_load _ _) (alike_answer hr _)
  | reservedOp | reservedArg => exact .refused _
  | pllw word base => exact alike_whenRicher hc fun _ _ => alike_answer hr _
  | _ =>
    refine exec_query_alike hc hr (fun r f o _ => ?_) (fun r f _ => ?_) rfl
    · rw [hx]
      exact ⟨rfl, rfl, rfl, rfl, rfl⟩
    · rw [hx]
      exact ⟨rfl, rfl, rfl⟩

end Operations

/-! ### The statements -/

theorem alike_of_refused {reason : Refusal} {o : Out} (h : Alike s s' (.refused reason) o) : o = .refused reason := by
  cases h
  rfl

theorem alike_of_next {o : Out} (h : Alike s s' (.next t) o) :
    ∃ t' events, o = .next t' ∧ t'.result = t.result ∧ t'.ready = t.ready ∧ (s'.x = s.x → t'.x = t.x)
      ∧ t.diags = s.diags ++ events ∧ t'.diags = s'.diags ++ events := by
  cases h with
  | next _ t' events hresult hready hx hd hd' => exact ⟨t', events, rfl, hresult, hready, hx, hd, hd'⟩

/-- Settles O58: `exec_alike`, read as the two outcomes. -/
theorem outputsAreNeverReadBack : Obligations.OutputsAreNeverReadBack := by
  intro i s s' hc hx hr
  have h := exec_alike hc hr hx i
  refine ⟨fun reason hs => alike_of_refused (hs ▸ h), fun t hs => ?_⟩
  obtain ⟨t', events, ht', hresult, hready, hx', hd, hd'⟩ := alike_of_next (hs ▸ h)
  exact ⟨t', events, ht', hx' hx, hready, hresult, hd, hd'⟩

/-- Settles O28: SAVE needs `ready` and returns `x`, so the restored state and the saved one agree on all a READ or a
QUERY depends on. -/
theorem snapshotRoundTripIsLossless : Obligations.SnapshotRoundTripIsLossless := by
  intro s t u version image ⟨_, hlen, _⟩ hsave hres hu
  obtain ⟨hr, ht⟩ := whenReady_next hsave
  cases ht
  cases hres
  have hok : s.cfg.snapVersion = u.cfg.snapVersion ∧ s.x.length = u.cfg.words := by
    rw [hu]
    exact ⟨rfl, hlen hr⟩
  refine ⟨if_pos hok, fun i a _ ha => ?_⟩
  have h := exec_alike (s := s) (s' := { u with x := s.x, ready := true, result := .accepted }) hu hr.symm rfl i
  obtain ⟨b, _, hb, hresult, -⟩ := alike_of_next (ha ▸ h)
  exact ⟨b, hb, hresult⟩

/-! ### Repeated accesses -/

/-- A transaction that left the registers and `ready` as they were does the same again. -/
theorem exec_again (h : exec i s = .next t) (hx : t.x = s.x) (hr : t.ready = s.ready) :
    ∃ u, exec i t = .next u ∧ u.result = t.result ∧ u.x = t.x ∧ u.ready = t.ready := by
  obtain ⟨u, _, hu, hresult, hready, hx', -⟩ := alike_of_next (h ▸ exec_alike (exec_next h).cfg_eq hr hx i)
  exact ⟨u, hu, hresult, hx' hx, hready⟩

/-- What the policy leaves does not change when the same value is written again. -/
theorem applyPolicy_again (p : Policy) (old v : Word) :
    applyPolicy p (applyPolicy p old v) v = applyPolicy p old v := by
  cases p with
  | ignored => rfl
  | masked m f =>
    ext k hk
    simp only [applyPolicy, BitVec.getElem_or, BitVec.getElem_and, BitVec.getElem_not]
    cases m[k] <;> cases f[k] <;> simp

theorem exec_write_delivered {size : Byte} {offset v : Word} (h : exec (.write size offset v) s = .next t) :
    s.ready = true ∧ deliverable s.cfg size offset = true := by
  obtain ⟨r, -, h⟩ := whenRicher_next h
  obtain ⟨hd, h⟩ := whenReady_next h
  refine ⟨hd, ?_⟩
  by_contra hdel
  rw [if_neg hdel] at h
  cases h

theorem exec_writeC_ready {size : Byte} {offset v : Word} (h : exec (.writeC size offset v) s = .next t) :
    s.ready = true :=
  (whenReady_next (whenC_next h).2).1

theorem exec_write_in_bounds {size : Byte} {offset v : Word} (hr : s.cfg.ctl.richer = some r) (hd : s.ready = true)
    (hdel : deliverable s.cfg size offset = true) (hin : inBounds s.cfg offset = true) :
    exec (.write size offset v) s = writeWord r s offset v := by
  simp [exec, execWrite, whenRicher_some hr, whenReady_ready hd, hdel, hin]

theorem inBounds_of_wordIndex_lt {c : Config} {offset : Word} (h : wordIndex offset < c.words) :
    inBounds c offset = true := by
  rw [wordIndex_eq_div] at h
  exact inBounds_iff.mpr (by omega)

/-- Settles O24: an access that stores nothing is `exec_again`; one that stores a word stores the same word again. -/
theorem accessesAreIdempotent : Obligations.AccessesAreIdempotent := by
  intro i s t ⟨_, hlen, _⟩ hi h
  cases exec_next h with
  | answered _ ht => exact exec_again h (by simp [ht]) (by simp [ht])
  | logged _ _ _ ht => exact exec_again h (by simp [ht]) (by simp [ht])
  | wrote size offset v r hi hr hb ht =>
    subst hi ht
    obtain ⟨hd, hdel⟩ := exec_write_delivered h
    have hlt : wordIndex offset < s.x.length := hb.trans_eq (hlen hd).symm
    refine ⟨_, exec_write_in_bounds hr hd hdel (inBounds_of_wordIndex_lt hb), rfl, ?_, rfl⟩
    simp [wordAt_set_same _ hlt, applyPolicy_again]
  | wroteC size offset v hi hc hw ht =>
    subst hi ht
    have hd : s.ready = true := exec_writeC_ready h
    refine ⟨_, exec_writeC_eq hc hd hw, rfl, ?_, rfl⟩
    simp [wordIndex_eq_div]
  | loaded _ _ hl =>
    cases i <;> simp [Instr.isRead, Instr.isWrite, Instr.isReset, Instr.isRestore] at hi hl

/-! ### Queries and the named fields -/

theorem wordAt_congr {x x' : List Word} {k : Nat} (h : x[k]? = x'[k]?) : wordAt x' k = wordAt x k := by
  simp [wordAt, List.getD_eq_getElem?_getD, h]

/-- R160: the six named parts of the register file that variant A's chain reads. -/
theorem sameClocksA_of_fields {f : FieldsA} {x x' : List Word} (hmpll : x[f.mpllWord]? = x'[f.mpllWord]?)
    (hupll : x[f.upllWord]? = x'[f.upllWord]?) (hbypass : isSet x f.mpllBypass = isSet x' f.mpllBypass)
    (harm : isSet x f.armSrc = isSet x' f.armSrc) (hdiv : fieldAt x f.armClkDiv = fieldAt x' f.armClkDiv)
    (hahb : fieldAt x f.ahbClkDiv = fieldAt x' f.ahbClkDiv) : SameClocksA r f x x' := by
  have mpll : mpllA r f x' = mpllA r f x := by rw [mpllA, mpllA, hbypass, wordAt_congr hmpll]
  have mcu : mcuA r f x' = mcuA r f x := by rw [mcuA, mcuA, mpll, divisorAt, divisorAt, hdiv, harm]
  have ahb : ahbA r f x' = ahbA r f x := by rw [ahbA, ahbA, mcu, divisorAt, divisorAt, hahb]
  exact ⟨mpll, by rw [upllA, upllA, wordAt_congr hupll], mcu, ahb, by rw [ipgA, ipgA, ahb]⟩

/-- R178: the six named parts of the register file that variant B's chain reads. -/
theorem sameClocksB_of_fields {f : FieldsB} {x x' : List Word} (hmpll : x[f.mpllWord]? = x'[f.mpllWord]?)
    (hsel : fieldAt x f.refsel = fieldAt x' f.refsel) (hbypass : isSet x f.bypassMode = isSet x' f.bypassMode)
    (hen : isSet x f.pllEnable = isSet x' f.pllEnable) (hhsp : fieldAt x f.hspDiv = fieldAt x' f.hspDiv)
    (hipg : fieldAt x f.ipgDiv = fieldAt x' f.ipgDiv) : SameClocksB r f x x' := by
  have ref : refclkB r f x' = refclkB r f x := by rw [refclkB, refclkB, hsel]
  have mcu : mcuB r f x' = mcuB r f x := by rw [mcuB, mcuB, hbypass, hen, ref, wordAt_congr hmpll]
  have hsp : hspB r f x' = hspB r f x := by rw [hspB, hspB, mcu, divisorAt, divisorAt, hhsp]
  exact ⟨mcu, hsp, by rw [ipgB, ipgB, hsp, divisorAt, divisorAt, hipg]⟩

/-- The part of `Alike` that the laws of the queries speak of. -/
theorem alike_result (ht : exec i s = .next t) (h : Alike s s' (exec i s) (exec i s')) :
    ∃ t', exec i s' = .next t' ∧ t'.result = t.result := by
  obtain ⟨t', _, ht', hresult, -⟩ := alike_of_next (ht ▸ h)
  exact ⟨t', ht', hresult⟩

/-- Settles O39: equal named fields give equal clocks, and UPLL's clock needs its own word alone. -/
theorem queriesOfADependOnNamedFieldsOnly : Obligations.QueriesOfADependOnNamedFieldsOnly := by
  intro s s' r f o ha hc _ _ hr hr' hupll
  have hready : s'.ready = s.ready := hr'.trans hr.symm
  refine ⟨fun t ht => alike_result ht ?upll,
    fun hmpll hbypass harm hdiv hahb i t hq ht => alike_result ht (exec_query_alike hc hready ?rowsA ?rowsB hq)⟩
  case upll =>
    refine alike_whenA hc fun r' f' o' ha' => alike_answerQuery hready ?_
    cases ha.symm.trans ha'
    rw [upllA, upllA, wordAt_congr hupll]
  case rowsA =>
    intro r' f' o' ha'
    cases ha.symm.trans ha'
    exact sameClocksA_of_fields hmpll hupll hbypass harm hdiv hahb
  case rowsB =>
    intro r' f' hb
    cases ha.symm.trans hb

/-- Settles O42: equal named fields give equal clocks. -/
theorem queriesOfBDependOnNamedFieldsOnly : Obligations.QueriesOfBDependOnNamedFieldsOnly := by
  intro s s' r f hb hc _ _ hr hr' hmpll hsel hbypass hen hhsp hipg i t hq ht
  refine alike_result ht (exec_query_alike hc (hr'.trans hr.symm) ?rowsA ?rowsB hq)
  case rowsA =>
    intro r' f' o' ha
    cases hb.symm.trans ha
  case rowsB =>
    intro r' f' hb'
    cases hb.symm.trans hb'
    exact sameClocksB_of_fields hmpll hsel hbypass hen hhsp hipg

end Sys2Proof.Machine
end

section
/-! PROOFS. WRITE of variants A and B and what is read next (spec/41_register_access.md R122, R124,
spec/70_reset_and_hazards.md R232): the outcomes of a WRITE, a word read back, and each clock of the chains from the
word just written. -/

namespace Sys2Proof.Machine

variable {s : State} {r : Richer} {size : Byte} {offset v : Word} {x : List Word} {i : Nat}

/-! ### The outcomes of WRITE -/

theorem exec_write_not_ready (hr : s.cfg.ctl.richer = some r) (hd : s.ready = false) :
    exec (.write size offset v) s = .refused .beforeReset :=
  (whenRicher_some hr).trans (whenReady_not_ready hd)

theorem exec_write_undeliverable (hr : s.cfg.ctl.richer = some r) (hd : s.ready = true)
    (hdel : deliverable s.cfg size offset = false) :
    exec (.write size offset v) s = .refused .undeliverableAccess := by
  simp [exec, execWrite, whenRicher_some hr, whenReady_ready hd, hdel]

theorem exec_write_out_of_range (hr : s.cfg.ctl.richer = some r) (hd : s.ready = true)
    (hdel : deliverable s.cfg size offset = true) (hout : inBounds s.cfg offset = false) :
    exec (.write size offset v) s = writeOutOfRange r s offset := by
  simp [exec, execWrite, whenRicher_some hr, whenReady_ready hd, hdel, hout]

theorem writeWord_eq (r : Richer) (s : State) (offset v : Word) :
    writeWord r s offset v =
      .next { s with
        x := s.x.set (offset.toNat / 4)
          (applyPolicy (policyAt r (offset.toNat / 4)) (wordAt s.x (offset.toNat / 4)) v)
        result := .nothing } := by
  rw [writeWord, wordIndex_eq_div]
  rfl

/-- Settles O19: in bounds the stored word is `applyPolicy`'s, whose value the declared policies give. -/
theorem writeAppliesThePolicy : Obligations.WriteAppliesThePolicy := by
  intro s r size offset v hr ⟨hwf, hx, _⟩
  obtain ⟨hwin, -, -⟩ := richer_window hr hwf
  refine ⟨exec_write_not_ready hr, fun hd h => exec_write_undeliverable hr hd (deliverable_eq_false_iff.mpr h),
    fun hd hsz hal hlt => ?inBounds, fun hd hsz hal hge hlt => ?outOfRange⟩
  case inBounds =>
    have hdel := deliverable_iff.mpr ⟨hsz, hal, hlt.trans_le hwin⟩
    have hin := inBounds_iff.mpr hlt
    have hlen : s.x.length = s.cfg.words := hx hd
    rw [exec_write_in_bounds hr hd hdel hin, writeWord_eq]
    refine ⟨by simp [decode_write_record hr, hin], _, wordAt_of_lt (by omega), fun m f hm => ?masked,
      fun hm => ?ignored, fun hm => ?plain⟩
    case masked =>
      rw [policyAt_declared hr hwf hm]
      rfl
    case ignored => rw [policyAt_declared hr hwf hm, applyPolicy_ignored, set_wordAt_self]
    case plain => rw [policyAt_undeclared hm, applyPolicy_plain]
  case outOfRange =>
    have hdel := deliverable_iff.mpr ⟨hsz, hal, hlt⟩
    have hout := inBounds_eq_false_iff.mpr hge
    rw [exec_write_out_of_range hr hd hdel hout, exec_writeOor_eq hr hd (hsz ▸ hdel) hout]

/-! ### A word and the offset `4 * i` -/

/-- A word-aligned READ of word `i` of a ready richer variant. -/
theorem exec_read_word (hr : s.cfg.ctl.richer = some r) (hw : s.cfg.wf = true) (hd : s.ready = true)
    (hi : i < s.cfg.words) :
    exec (.read 4#8 (BitVec.ofNat 32 (4 * i))) s = .next { s with result := .value (wordAt s.x i) } := by
  obtain ⟨hwin, hmax, -⟩ := richer_window hr hw
  have hoff : (BitVec.ofNat 32 (4 * i)).toNat = 4 * i := Nat.mod_eq_of_lt (by omega)
  have hdel := deliverable_iff (c := s.cfg).mpr ⟨rfl, by omega, show (BitVec.ofNat 32 (4 * i)).toNat < _ by omega⟩
  have hin := inBounds_iff (c := s.cfg) (offset := BitVec.ofNat 32 (4 * i)).mpr (by omega)
  rw [exec_read_in_bounds hr hd hdel hin, readWord_eq, wordIndex_eq_div, hoff, Nat.mul_div_cancel_left i (by norm_num)]

/-- Settles O21: the READ finds the word that the WRITE stored. -/
theorem maskedWriteReadsBackUnderTheMask : Obligations.MaskedWriteReadsBackUnderTheMask := by
  intro s r i m f old v hr ⟨hwf, hx, _⟩ hd hm hold
  have hi : i < s.cfg.words := (policies_wf hr hwf).2 _ hm
  have hlt : i < s.x.length := hi.trans_eq (hx hd).symm
  obtain rfl : wordAt s.x i = old := Option.some.inj ((wordAt_of_lt hlt).symm.trans hold)
  refine ⟨_, _, exec_write_word hr hwf hd hi v, exec_read_word hr hwf hd hi, ?_⟩
  rw [policyAt_declared hr hwf hm]
  exact congrArg Result.value (wordAt_set_same _ hlt)

/-- R122, R232: what a WRITE of word `i` finds, and what it leaves. -/
theorem exec_write_stored (hr : s.cfg.ctl.richer = some r) (hs : s.Inv) (hd : s.ready = true)
    (hi : i < s.cfg.words) (v : Word) :
    ∃ old new, s.x[i]? = some old ∧ storedAs r i old v new
      ∧ exec (.write 4#8 (BitVec.ofNat 32 (4 * i)) v) s = .next { s with x := s.x.set i new, result := .nothing } := by
  have ⟨hwf, _⟩ := hs
  exact ⟨_, _, ready_word hs hd hi, storedAs_applyPolicy hr hwf _ v, exec_write_word hr hwf hd hi v⟩

/-! ### Clocks from the word just written -/

/-- R150: a supported clock of variant A's chain is answered with its value. -/
theorem whenA_answers {k : Richer → FieldsA → Word} {clk : ClockId} {f : FieldsA} {o : Override}
    (hc : s.cfg.ctl = .a r f o) (hd : s.ready = true) (hs : clk ∈ r.supported) (hv : k r f = v) :
    (whenA s fun r f _ => answerQuery s r clk (k r f)) = .next { s with result := .hz v } := by
  rw [whenA_a hc, answerQuery_supported hd hs, hv]

/-- R150: a supported clock of variant B's chain is answered with its value. -/
theorem whenB_answers {k : Richer → FieldsB → Word} {clk : ClockId} {f : FieldsB} (hc : s.cfg.ctl = .b r f)
    (hd : s.ready = true) (hs : clk ∈ r.supported) (hv : k r f = v) :
    (whenB s fun r f => answerQuery s r clk (k r f)) = .next { s with result := .hz v } := by
  rw [whenB_b hc, answerQuery_supported hd hs, hv]

theorem isSet_set_of_eq {p : BitPos} (hp : i = p.idx) (hi : i < x.length) (v : Word) :
    isSet (x.set i v) p = v.getLsbD p.bit := by
  subst hp
  exact isSet_set_same v hi

theorem fieldAt_set_of_eq {p : FieldPos} (hp : i = p.idx) (hi : i < x.length) (v : Word) :
    fieldAt (x.set i v) p = bits v p.lo p.width := by
  subst hp
  exact fieldAt_set_same v hi

theorem divisorAt_set_of_eq {p : FieldPos} (hp : i = p.idx) (hi : i < x.length) (v : Word) :
    divisorAt (x.set i v) p = 1 + bits v p.lo p.width := by
  rw [divisorAt, fieldAt_set_of_eq hp hi]

/-- R154 with the division by the field written once. -/
theorem mcuA_eq (r : Richer) (f : FieldsA) (x : List Word) :
    mcuA r f x =
      divU (if isSet x f.armSrc then divU (mpllA r f x * 3#32) 4 else mpllA r f x) (divisorAt x f.armClkDiv) := by
  unfold mcuA
  split
  · rfl
  · rfl

/-- Settles O47: the PLL word that the query reads is the word just stored. -/
theorem nextQuerySeesTheWrittenWord : Obligations.NextQuerySeesTheWrittenWord := by
  refine ⟨fun s r f o v hc hs hd => ?variantA, fun s r f v hc hs hd => ?variantB⟩
  case variantA =>
    have ⟨hwf, hx, _⟩ := hs
    obtain ⟨hmpll, hupll, -⟩ := fieldsA_in_words hc hwf
    obtain ⟨old, new, hold, hnew, hwrite⟩ := exec_write_stored (richer_a hc) hs hd hmpll v
    obtain ⟨old', new', hold', hnew', hwrite'⟩ := exec_write_stored (richer_a hc) hs hd hupll v
    refine ⟨⟨old, new, hold, hnew, hwrite, fun hsup hbypass => ?mpll⟩, old', new', hold', hnew', hwrite',
      fun hsup => ?upll⟩
    case mpll =>
      refine whenA_answers hc hd hsup ?_
      rw [mpllA, if_neg (by simp [hbypass]), wordAt_set_same new (hmpll.trans_eq (hx hd).symm)]
    case upll =>
      refine whenA_answers hc hd hsup ?_
      rw [upllA, wordAt_set_same new' (hupll.trans_eq (hx hd).symm)]
  case variantB =>
    have ⟨hwf, hx, _⟩ := hs
    obtain ⟨hmpll, -⟩ := fieldsB_in_words hc hwf
    obtain ⟨old, new, hold, hnew, hwrite⟩ := exec_write_stored (richer_b hc) hs hd hmpll v
    refine ⟨old, new, hold, hnew, hwrite, fun hsup hbypass hen => ?_⟩
    refine whenB_answers hc hd hsup ?_
    rw [mcuB, if_neg (by simp [hbypass, hen]), wordAt_set_same new (hmpll.trans_eq (hx hd).symm)]

/-- Settles O59: each control field that lies in the stored word is a slice or a bit of it. -/
theorem nextQuerySeesTheWrittenControlField : Obligations.NextQuerySeesTheWrittenControlField := by
  refine ⟨fun s r f o i v hc hs hd hi => ?variantA, fun s r f i v hc hs hd hi => ?variantB⟩
  case variantA =>
    obtain ⟨old, new, hold, hnew, hwrite⟩ := exec_write_stored (richer_a hc) hs hd hi v
    have ⟨_, hx, _⟩ := hs
    have hlt : i < s.x.length := hi.trans_eq (hx hd).symm
    refine ⟨old, new, hold, hnew, hwrite, fun hp hsup => ?bypass, fun hp hsup => ?armSrc, fun hp hsup => ?armDiv,
      fun hp hsup => ?ahbDiv⟩
    all_goals refine whenA_answers hc hd hsup ?_
    case bypass => rw [mpllA, isSet_set_of_eq hp hlt]
    case armSrc => rw [mcuA_eq, isSet_set_of_eq hp hlt]
    case armDiv => rw [mcuA_eq, divisorAt_set_of_eq hp hlt]
    case ahbDiv => rw [ahbA, divisorAt_set_of_eq hp hlt]
  case variantB =>
    obtain ⟨old, new, hold, hnew, hwrite⟩ := exec_write_stored (richer_b hc) hs hd hi v
    have ⟨_, hx, _⟩ := hs
    have hlt : i < s.x.length := hi.trans_eq (hx hd).symm
    refine ⟨old, new, hold, hnew, hwrite, fun hp hsup => ?refsel, fun hp hsup => ?bypass, fun hp hsup => ?enable,
      fun hp hsup => ?hspDiv, fun hp hsup => ?ipgDiv⟩
    all_goals refine whenB_answers hc hd hsup ?_
    case refsel => rw [mcuB, refclkB, fieldAt_set_of_eq hp hlt]
    case bypass => rw [mcuB, isSet_set_of_eq hp hlt]
    case enable => rw [mcuB, isSet_set_of_eq (p := f.pllEnable) hp hlt]
    case hspDiv => rw [hspB, divisorAt_set_of_eq hp hlt]
    case ipgDiv => rw [ipgB, divisorAt_set_of_eq hp hlt]

end Sys2Proof.Machine
end

section
/-! PROOFS. RESET, SAVE and RESTORE (spec/70_reset_and_hazards.md R220 to R226, spec/41_register_access.md R130, R131)
and the remaining clocks (spec/42_clock_query.md R154, R157, R175, R176): every RESET row loads `resetImage`, a value of
the configuration alone. -/

namespace Sys2Proof.Machine

variable {c : Config} {s : State} {i : Instr} {r : Richer}

/-! ### The row a command byte selects -/

theorem selects_reset (c : Config) : selects c 0x20#8 (resetRow c.ctl.variant) := by
  intro q version image hq
  simp [decode, decodeRecord, opOf, argOf, hq]

theorem selects_save (c : Config) : selects c 0x40#8 .save := by
  intro q version image hq
  simp [decode, decodeRecord, opOf, argOf, hq]

theorem selects_resetRow {ctl : Controller} (hc : c.ctl = ctl) : selects c 0x20#8 (resetRow ctl.variant) :=
  hc ▸ selects_reset c

/-! ### The words RESET loads -/

/-- R220: the RESET of the installed variant, in every state. -/
theorem exec_reset_eq (hi : i.isReset = true) (hw : i.wf s.cfg = true) :
    exec i s = resetTo s (resetImage s.cfg) := by
  cases i <;> simp only [Instr.isReset, Bool.false_eq_true] at hi
  case resetA =>
    obtain ⟨r, f, o, hc⟩ := ctl_of_variant_A hw
    rw [resetImage, hc]
    exact whenA_a hc
  case resetB =>
    obtain ⟨r, f, hc⟩ := ctl_of_variant_B hw
    rw [resetImage, hc]
    exact whenB_b hc
  case resetC =>
    have hc := ctl_of_variant_C hw
    rw [resetImage, hc]
    exact whenC_c hc

/-- R221 to R223: the table, and 0 in the words past its end. -/
theorem tableImage_eq_append (h : c.resetTable.length ≤ c.words) :
    tableImage c = c.resetTable ++ List.replicate (c.words - c.resetTable.length) 0#32 := by
  refine List.ext_getElem (by simp [tableImage]; omega) fun k hk hk' => ?_
  by_cases hlt : k < c.resetTable.length
  · simp [tableImage, hlt]
  · simp [tableImage, List.getElem_append_right (not_lt.mp hlt), hlt]

theorem tableImage_eq_table (h : c.resetTable.length = c.words) : tableImage c = c.resetTable := by
  rw [tableImage_eq_append h.le, h]
  simp

/-- R7, R221, R222: a richer variant's table has a value for every word. -/
theorem richer_table_length (hr : c.ctl.richer = some r) (hw : c.wf = true) : c.resetTable.length = c.words := by
  cases hc : c.ctl <;> simp [hc, Controller.richer] at hr <;> simp [Config.wf, hc] at hw <;> tauto

theorem baseline_table_length (hc : c.ctl = .c) (hw : c.wf = true) : c.resetTable.length ≤ c.words := by
  simp [Config.wf, hc] at hw
  tauto

/-- R221: the override word is a word of the file, and the override's value lies within its mask. -/
theorem override_wf {f : FieldsA} {o : Override} (hc : c.ctl = .a r f o) (hw : c.wf = true) :
    o.idx < c.words ∧ o.val &&& ~~~o.mask = 0#32 := by
  simp [Config.wf, hc, Override.wf] at hw
  tauto

/-- R221: inside the mask the bits are the override's, outside it the table's. -/
theorem getLsbD_override {a mask val : Word} (h : val &&& ~~~mask = 0#32) {k : Nat} (hk : k < 32) :
    ((a &&& ~~~mask) ||| val).getLsbD k = if mask.getLsbD k then val.getLsbD k else a.getLsbD k := by
  have hbit : (val &&& ~~~mask).getLsbD k = false := by rw [h, BitVec.getLsbD_zero]
  simp only [BitVec.getLsbD_and, BitVec.getLsbD_not, hk, decide_true, Bool.true_and] at hbit
  simp only [BitVec.getLsbD_or, BitVec.getLsbD_and, BitVec.getLsbD_not, hk, decide_true, Bool.true_and]
  cases hm : mask.getLsbD k with
  | true => simp
  | false => simp_all

/-- Settles O29: `applyOverride` sets the one word of the table. -/
theorem resetALoadsTheTableThenOverrides : Obligations.ResetALoadsTheTableThenOverrides := by
  intro s r f o hc hw
  have hlen := richer_table_length (richer_a hc) hw
  obtain ⟨hidx, hval⟩ := override_wf hc hw
  have hlt : o.idx < s.cfg.resetTable.length := hidx.trans_eq hlen.symm
  have hexec : exec .resetA s = resetTo s (applyOverride o s.cfg.resetTable) :=
    tableImage_eq_table hlen ▸ whenA_a hc
  refine ⟨selects_resetRow hc, _, hexec, by simpa [applyOverride] using hlen,
    fun i hi => ?others, _, _, wordAt_of_lt hlt, ?stored, rfl, fun k hk => getLsbD_override hval hk⟩
  case others => exact List.getElem?_set_ne (Ne.symm hi)
  case stored => exact List.getElem?_set_self hlt

/-- Settles O30: the table covers every word. -/
theorem resetBLoadsTheTable : Obligations.ResetBLoadsTheTable := by
  intro s r f hc hw
  refine ⟨selects_resetRow hc, ?_⟩
  refine (whenB_b hc).trans ?_
  rw [tableImage_eq_table (richer_table_length (richer_b hc) hw), resetTo_eq]

/-- Settles O31: the baseline's table may be shorter than the register file. -/
theorem resetCLoadsTheTableAndZeros : Obligations.ResetCLoadsTheTableAndZeros := by
  intro s hc hw
  refine ⟨selects_resetRow hc, ?_⟩
  refine (whenC_c hc).trans ?_
  rw [tableImage_eq_append (baseline_table_length hc hw), resetTo_eq]

/-- Settles O32: both states load the image of their common configuration. -/
theorem resetIsHistoryFree : Obligations.ResetIsHistoryFree := by
  intro i s s' hi hw hc
  refine ⟨_, exec_reset_eq hi hw, ?_⟩
  rw [← hc] at hw ⊢
  exact exec_reset_eq hi hw

/-- Settles O51: the constructed state has the outputs of the reset state already. -/
theorem resetStateIsResetOfConstructed : Obligations.ResetStateIsResetOfConstructed :=
  fun _ _ hi hw => exec_reset_eq hi hw

/-! ### Snapshot -/

/-- Settles O26: the two branches of the `ready` check. -/
theorem saveReturnsTheImage : Obligations.SaveReturnsTheImage :=
  fun s => ⟨selects_save s.cfg, whenReady_ready, whenReady_not_ready⟩

/-- Settles O27: the two branches of the version and length check. -/
theorem restoreIsExactOrRejected : Obligations.RestoreIsExactOrRejected :=
  fun _ _ _ => ⟨rfl, fun hv hl => if_pos ⟨hv, hl⟩, fun h => if_neg (not_and_or.mpr h)⟩

/-! ### Clocks -/

/-- Settles O36: `mcuA_eq` in natural numbers. -/
theorem mcuAFollowsTheArmSource : Obligations.McuAFollowsTheArmSource := by
  intro s r f o hc hi hd
  have ⟨hwf, _⟩ := hi
  obtain ⟨hword, -, hbypass, hsrc, hdiv, -⟩ := fieldsA_in_words hc hwf
  refine ⟨selects_queryRowA hc 3#4, _, _, _, _, ready_word hi hd hsrc, ready_word hi hd hdiv, ready_word hi hd hbypass,
    ready_word hi hd hword, ?value, fun hs => whenA_answers hc hd hs rfl⟩
  case value =>
    rw [mcuA_eq, divU_divisorAt_toNat]
    by_cases h : isSet s.x f.armSrc = true
    · rw [if_pos h, divU_toNat, BitVec.toNat_mul]
      exact (if_pos h).symm
    · rw [if_neg h]
      exact (if_neg h).symm

/-- Settles O38: the answer is the parameter, with no register read. -/
theorem lowFrequencyClockIsConstant : Obligations.LowFrequencyClockIsConstant :=
  ⟨fun _ _ _ _ hc hd hs => ⟨selects_queryRowA hc 6#4, (whenA_a hc).trans (answerQuery_supported hd hs)⟩,
    fun _ _ _ hc hd hs => ⟨selects_queryRowB hc 6#4, (whenB_b hc).trans (answerQuery_supported hd hs)⟩⟩

/-- Settles O44: the two rows pass the `ready` check and raise their event. -/
theorem variantBHasNoPllOutputs : Obligations.VariantBHasNoPllOutputs :=
  fun _ _ _ hc hd => ⟨selects_queryRowB hc 1#4, selects_queryRowB hc 2#4,
    (whenB_b hc).trans (whenReady_ready hd), (whenB_b hc).trans (whenReady_ready hd)⟩

end Sys2Proof.Machine
end
